-- ==== Sys2Proof/Word.lean ====
section
/-! DEFINITION. The port words of CORE and the plainest arithmetic on them (spec/00_scope.md section 6,
spec/30_encoding.md rules R45, R46). -/

namespace Sys2Proof

/-- A byte: the unit of the wire form of a NAME (R31) and the width of the `op`, `sel` and `info` fields. -/
abbrev Byte := BitVec 8

/-- A 64-bit operand or result word: the `a`, `b` and `r` fields (R45, R46). -/
abbrev Word := BitVec 64

/-- The request port, `REQ[143:0]` (R45). -/
abbrev RequestWord := BitVec 144

/-- The response port, `RSP[75:0]` (R46). -/
abbrev ResponseWord := BitVec 76

/-- An IEEE 754 binary64 value, held as its 64-bit pattern: `bits64` and `f64_of_bits` of
spec/00_scope.md section 6 are the identity on this type (R120). -/
abbrev F64 := BitVec 64

/-- `2 ^ n`.  It is written with exponents below 256 so that Lean's elaborator, which does not evaluate larger
ones, can evaluate the binary64 arithmetic on numerals; `pow2_eq` is the reading. -/
def pow2 (n : Nat) : Nat := 2 ^ (n % 256) * (2 ^ 256) ^ (n / 256)

@[simp] theorem pow2_eq (n : Nat) : pow2 n = 2 ^ n := by
  rw [pow2, ← pow_mul, ← pow_add, Nat.mod_add_div]

/-- The place of the highest set bit of a number below `2 ^ (2 * k)`, for the first `k` of a list that halves down
to 1. -/
def floorLog2Below : List Nat → Nat → Nat
  | [], _ => 0
  | k :: ks, n => if pow2 k ≤ n then k + floorLog2Below ks (n / pow2 k) else floorLog2Below ks n

/-- The place of the highest set bit, by halving: it takes a dozen steps where `Nat.log2` takes one a bit, so that
the binary64 arithmetic evaluates on numerals; `floorLog2_eq` is the reading. -/
def floorLog2 (n : Nat) : Nat :=
  if n < pow2 4096 then floorLog2Below [2048, 1024, 512, 256, 128, 64, 32, 16, 8, 4, 2, 1] n else n.log2

theorem floorLog2Below_nil {n : Nat} (hn : 0 < n) (h : n < 2 ^ 1) : floorLog2Below [] n = n.log2 := by
  obtain rfl : n = 1 := by omega
  decide

theorem floorLog2Below_cons {m : Nat} (k : Nat) {ks : List Nat} (hm : m = k + k)
    (ih : ∀ n, 0 < n → n < 2 ^ k → floorLog2Below ks n = n.log2) (n : Nat) (hn : 0 < n) (h : n < 2 ^ m) :
    floorLog2Below (k :: ks) n = n.log2 := by
  subst hm
  rw [floorLog2Below, pow2_eq]
  split
  · rename_i hle
    have hpos : 0 < 2 ^ k := by positivity
    have hlog : k ≤ n.log2 := (Nat.le_log2 (by omega)).2 hle
    rw [ih _ (Nat.div_pos hle hpos) (Nat.div_lt_of_lt_mul (by rwa [← pow_add])), Nat.log2_eq_log_two,
      Nat.log2_eq_log_two, Nat.log_div_base_pow]
    rw [Nat.log2_eq_log_two] at hlog
    omega
  · exact ih n hn (by omega)

@[simp] theorem floorLog2_eq (n : Nat) : floorLog2 n = n.log2 := by
  rw [floorLog2]
  split
  · rename_i hlt
    rw [pow2_eq] at hlt
    rcases Nat.eq_zero_or_pos n with rfl | hn
    · decide
    refine floorLog2Below_cons (m := 4096) 2048 (by norm_num) ?_ n hn hlt
    refine floorLog2Below_cons (m := 2048) 1024 (by norm_num) ?_
    refine floorLog2Below_cons (m := 1024) 512 (by norm_num) ?_
    refine floorLog2Below_cons (m := 512) 256 (by norm_num) ?_
    refine floorLog2Below_cons (m := 256) 128 (by norm_num) ?_
    refine floorLog2Below_cons (m := 128) 64 (by norm_num) ?_
    refine floorLog2Below_cons (m := 64) 32 (by norm_num) ?_
    refine floorLog2Below_cons (m := 32) 16 (by norm_num) ?_
    refine floorLog2Below_cons (m := 16) 8 (by norm_num) ?_
    refine floorLog2Below_cons (m := 8) 4 (by norm_num) ?_
    refine floorLog2Below_cons (m := 4) 2 (by norm_num) ?_
    exact floorLog2Below_cons (m := 2) 1 (by norm_num) fun n hn h => floorLog2Below_nil hn h
  · rfl

end Sys2Proof
end

