-- ==== Sys2Proof/Syntax.lean ====
section
/-! DEFINITION. The operations of CORE as data: one constructor for each of the 39 rows of
spec/opcode_table.json (spec/30_encoding.md rule R49), with the operand ports its format reads (R50).
Ports a format marks as ignored are no operands. -/

namespace Sys2Proof

/-- The four fields of a request (R45). -/
structure Request where
  op  : Byte
  sel : Byte
  b   : Word
  a   : Word
deriving DecidableEq, Repr

/-- An operation with its operands, by operand format (R50):
format I reads `sel` and `a[28:0]`; N reads `a`; NP reads nine ports of `a` and `b`; S reads `sel` and
`a[31:0]`; C reads `a[7:0]`; Z reads nothing; F reads `sel` and `a`; U reads `sel` and `a[31:0]`; K reads `sel`. -/
inductive Instr where
  -- Identifier unit, format I
  | idPrio (sel : Byte) (raw : BitVec 29)
  | idSa   (sel : Byte) (raw : BitVec 29)
  | idPf   (sel : Byte) (raw : BitVec 29)
  | idPs   (sel : Byte) (raw : BitVec 29)
  | idDa   (sel : Byte) (raw : BitVec 29)
  | idGe   (sel : Byte) (raw : BitVec 29)
  | idDp   (sel : Byte) (raw : BitVec 29)
  | idEdp  (sel : Byte) (raw : BitVec 29)
  -- Name unit, formats NP and N
  | nameNew (identity : BitVec 32) (manufacturerCode : BitVec 16) (ecuInstance : Byte) (functionInstance : Byte)
      (function : Byte) (vehicleSystem : Byte) (vehicleSystemInstance : Byte) (industryGroup : Byte)
      (arbitraryAddressCapable : Byte)
  | nameAsRaw   (n : Word)
  | nameFromRaw (bytes : Word)
  | nameIdent   (n : Word)
  | nameMfr     (n : Word)
  | nameEcui    (n : Word)
  | nameFni     (n : Word)
  | nameFn      (n : Word)
  | nameVs      (n : Word)
  | nameVsi     (n : Word)
  | nameIg      (n : Word)
  | nameAac     (n : Word)
  -- Signal unit, classifier, format S
  | sigValid (sel : Byte) (value : BitVec 32)
  | sigSpec  (sel : Byte) (value : BitVec 32)
  | sigErr   (sel : Byte) (value : BitVec 32)
  | sigNa    (sel : Byte) (value : BitVec 32)
  | sigClass (sel : Byte) (value : BitVec 32)
  -- Signal unit, Parameter and Command, formats C and Z
  | parDec (code : Byte)
  | parEnc (tag : Byte)
  | parDflt
  | cmdDec (code : Byte)
  | cmdEnc (tag : Byte)
  | cmdDflt
  -- Slot unit, formats F, U and K
  | slotNew     (sel : Byte) (v : F64)
  | slotFromRaw (sel : Byte) (raw : BitVec 32)
  | slotAsRaw   (sel : Byte) (v : F64)
  | slotScale   (sel : Byte)
  | slotOffset  (sel : Byte)
  | slotMin     (sel : Byte)
  | slotMax     (sel : Byte)
  | slotUnit    (sel : Byte)
deriving DecidableEq, Repr

end Sys2Proof
end

