-- ==== Sys2Proof/WellFormed.lean ====
section
/-! DEFINITION. Which operations are requests that keep the host's obligations: a legal `sel` where the legal set
is fixed (spec/30_encoding.md rule R48), an operand that fits the declared width (spec/70_reset_and_hazards.md
rule R154, spec/43_signal.md rule R94), and an operand that is a member of its variant set (R108, R111).
CORE also answers requests that break these; their answers are the meanings', not this file's. -/

namespace Sys2Proof

/-- A legal identifier operand: tag 0 or 1 (R48), and a Standard raw value of at most 11 bits (R21, R154). -/
def wfIdentifier (sel : Byte) (raw : BitVec 29) : Bool :=
  sel.toNat ≤ 1 && (sel.toNat == 1 || raw.toNat < 2 ^ 11)

/-- The width in bits that a width code selects (R94), `none` for a code outside 0..8. -/
def codeBits (sel : Byte) : Option Nat := [4, 8, 10, 12, 16, 20, 24, 28, 32][sel.toNat]?

/-- A legal signal operand: a width code 0..8 (R48), and a value of that width (R94). -/
def wfSignal (sel : Byte) (value : BitVec 32) : Bool :=
  match codeBits sel with
  | some w => value.toNat < 2 ^ w
  | none => false

/-- The host's obligations on one operation.  A slot index is legal by `CFG.NSLOT`, so no index is ill formed by
itself; a NAME.NEW argument that exceeds its width and a code PAR.DEC or CMD.DEC does not know have answers of the
source's own and are well formed. -/
def Instr.wf : Instr → Bool
  | .idPrio sel raw => wfIdentifier sel raw
  | .idSa sel raw => wfIdentifier sel raw
  | .idPf sel raw => wfIdentifier sel raw
  | .idPs sel raw => wfIdentifier sel raw
  | .idDa sel raw => wfIdentifier sel raw
  | .idGe sel raw => wfIdentifier sel raw
  | .idDp sel raw => wfIdentifier sel raw
  | .idEdp sel raw => wfIdentifier sel raw
  | .nameNew _ _ _ _ _ _ _ _ _ => true
  | .nameAsRaw _ => true
  | .nameFromRaw _ => true
  | .nameIdent _ => true
  | .nameMfr _ => true
  | .nameEcui _ => true
  | .nameFni _ => true
  | .nameFn _ => true
  | .nameVs _ => true
  | .nameVsi _ => true
  | .nameIg _ => true
  | .nameAac _ => true
  | .sigValid sel value => wfSignal sel value
  | .sigSpec sel value => wfSignal sel value
  | .sigErr sel value => wfSignal sel value
  | .sigNa sel value => wfSignal sel value
  | .sigClass sel value => wfSignal sel value
  | .parDec _ => true
  | .parEnc tag => tag.toNat ≤ 3
  | .parDflt => true
  | .cmdDec _ => true
  | .cmdEnc tag => tag.toNat ≤ 3 && tag.toNat != 2
  | .cmdDflt => true
  | .slotNew _ _ => true
  | .slotFromRaw _ _ => true
  | .slotAsRaw _ _ => true
  | .slotScale _ => true
  | .slotOffset _ => true
  | .slotMin _ => true
  | .slotMax _ => true
  | .slotUnit _ => true

end Sys2Proof
end

