-- ==== Sys2Proof/Decode.lean ====
section
/-! DEFINITION. From request bits to operations and back (spec/30_encoding.md rules R45 to R50, R53).
Decoding is total: a request spells one of the 39 operations or is rejected by name with its reserved `op`.
After it, the encoder, written from the same tables. -/

namespace Sys2Proof

/-- What a request spells: an operation, or a reserved `op` value (R47, R53). -/
inductive Decoded where
  | operation (i : Instr)
  | reservedOp (op : Byte)
deriving DecidableEq, Repr

/-- The four fields of the request port: `op = REQ[143:136]`, `sel = REQ[135:128]`, `b = REQ[127:64]`,
`a = REQ[63:0]` (R45). -/
def Request.ofWord (w : RequestWord) : Request where
  op  := w.extractLsb' 136 8
  sel := w.extractLsb' 128 8
  b   := w.extractLsb' 64 64
  a   := w.extractLsb' 0 64

/-- The request port made of its four fields, most significant first (R45). -/
def Request.toWord (q : Request) : RequestWord := q.op ++ q.sel ++ q.b ++ q.a

/-- Format I: the raw identifier `a[28:0]` (R50). -/
def Request.raw29 (q : Request) : BitVec 29 := q.a.extractLsb' 0 29

/-- Formats S and U: the raw value `a[31:0]` (R50). -/
def Request.raw32 (q : Request) : BitVec 32 := q.a.extractLsb' 0 32

/-- Format C: the wire code or variant tag `a[7:0]` (R50). -/
def Request.code (q : Request) : Byte := q.a.extractLsb' 0 8

/-- Format NP: the nine argument ports of NAME.NEW (R50, R79). -/
def Request.nameNew (q : Request) : Instr :=
  .nameNew (q.a.extractLsb' 0 32) (q.a.extractLsb' 32 16) (q.a.extractLsb' 48 8) (q.a.extractLsb' 56 8)
    (q.b.extractLsb' 0 8) (q.b.extractLsb' 8 8) (q.b.extractLsb' 16 8) (q.b.extractLsb' 24 8)
    (q.b.extractLsb' 32 8)

/-- The operation map (R49): `op` selects the operation, its format (R50) selects the operand ports. -/
def Request.decode (q : Request) : Decoded :=
  match q.op.toNat with
  | 0x10 => .operation (.idPrio q.sel q.raw29)
  | 0x11 => .operation (.idSa q.sel q.raw29)
  | 0x12 => .operation (.idPf q.sel q.raw29)
  | 0x13 => .operation (.idPs q.sel q.raw29)
  | 0x14 => .operation (.idDa q.sel q.raw29)
  | 0x15 => .operation (.idGe q.sel q.raw29)
  | 0x16 => .operation (.idDp q.sel q.raw29)
  | 0x17 => .operation (.idEdp q.sel q.raw29)
  | 0x20 => .operation q.nameNew
  | 0x21 => .operation (.nameAsRaw q.a)
  | 0x22 => .operation (.nameFromRaw q.a)
  | 0x23 => .operation (.nameIdent q.a)
  | 0x24 => .operation (.nameMfr q.a)
  | 0x25 => .operation (.nameEcui q.a)
  | 0x26 => .operation (.nameFni q.a)
  | 0x27 => .operation (.nameFn q.a)
  | 0x28 => .operation (.nameVs q.a)
  | 0x29 => .operation (.nameVsi q.a)
  | 0x2A => .operation (.nameIg q.a)
  | 0x2B => .operation (.nameAac q.a)
  | 0x30 => .operation (.sigValid q.sel q.raw32)
  | 0x31 => .operation (.sigSpec q.sel q.raw32)
  | 0x32 => .operation (.sigErr q.sel q.raw32)
  | 0x33 => .operation (.sigNa q.sel q.raw32)
  | 0x34 => .operation (.sigClass q.sel q.raw32)
  | 0x38 => .operation (.parDec q.code)
  | 0x39 => .operation (.parEnc q.code)
  | 0x3A => .operation .parDflt
  | 0x3B => .operation (.cmdDec q.code)
  | 0x3C => .operation (.cmdEnc q.code)
  | 0x3D => .operation .cmdDflt
  | 0x40 => .operation (.slotNew q.sel q.a)
  | 0x41 => .operation (.slotFromRaw q.sel q.raw32)
  | 0x42 => .operation (.slotAsRaw q.sel q.a)
  | 0x43 => .operation (.slotScale q.sel)
  | 0x44 => .operation (.slotOffset q.sel)
  | 0x45 => .operation (.slotMin q.sel)
  | 0x46 => .operation (.slotMax q.sel)
  | 0x47 => .operation (.slotUnit q.sel)
  | _ => .reservedOp q.op

/-- Decoding the request port (R47). -/
def decode (w : RequestWord) : Decoded := (Request.ofWord w).decode

/-- The `op` value of an operation (R49). -/
def Instr.opcode : Instr → Byte
  | .idPrio _ _ => 0x10#8
  | .idSa _ _ => 0x11#8
  | .idPf _ _ => 0x12#8
  | .idPs _ _ => 0x13#8
  | .idDa _ _ => 0x14#8
  | .idGe _ _ => 0x15#8
  | .idDp _ _ => 0x16#8
  | .idEdp _ _ => 0x17#8
  | .nameNew _ _ _ _ _ _ _ _ _ => 0x20#8
  | .nameAsRaw _ => 0x21#8
  | .nameFromRaw _ => 0x22#8
  | .nameIdent _ => 0x23#8
  | .nameMfr _ => 0x24#8
  | .nameEcui _ => 0x25#8
  | .nameFni _ => 0x26#8
  | .nameFn _ => 0x27#8
  | .nameVs _ => 0x28#8
  | .nameVsi _ => 0x29#8
  | .nameIg _ => 0x2A#8
  | .nameAac _ => 0x2B#8
  | .sigValid _ _ => 0x30#8
  | .sigSpec _ _ => 0x31#8
  | .sigErr _ _ => 0x32#8
  | .sigNa _ _ => 0x33#8
  | .sigClass _ _ => 0x34#8
  | .parDec _ => 0x38#8
  | .parEnc _ => 0x39#8
  | .parDflt => 0x3A#8
  | .cmdDec _ => 0x3B#8
  | .cmdEnc _ => 0x3C#8
  | .cmdDflt => 0x3D#8
  | .slotNew _ _ => 0x40#8
  | .slotFromRaw _ _ => 0x41#8
  | .slotAsRaw _ _ => 0x42#8
  | .slotScale _ => 0x43#8
  | .slotOffset _ => 0x44#8
  | .slotMin _ => 0x45#8
  | .slotMax _ => 0x46#8
  | .slotUnit _ => 0x47#8

/-- Format NP: the nine arguments on the ports of `b` and `a` (R79); the ignored `b[63:40]` is driven with 0. -/
def packNameNew (op : Byte) (identity : BitVec 32) (manufacturerCode : BitVec 16)
    (ecuInstance functionInstance function vehicleSystem vehicleSystemInstance industryGroup
      arbitraryAddressCapable : Byte) : Request where
  op  := op
  sel := 0
  b   := 0#24 ++ arbitraryAddressCapable ++ industryGroup ++ vehicleSystemInstance ++ vehicleSystem ++ function
  a   := functionInstance ++ ecuInstance ++ manufacturerCode ++ identity

/-- The request of an operation, its ignored ports driven with 0 (R50, R55). -/
def Instr.request (i : Instr) : Request :=
  match i with
  | .idPrio sel raw => ⟨i.opcode, sel, 0, raw.setWidth 64⟩
  | .idSa sel raw => ⟨i.opcode, sel, 0, raw.setWidth 64⟩
  | .idPf sel raw => ⟨i.opcode, sel, 0, raw.setWidth 64⟩
  | .idPs sel raw => ⟨i.opcode, sel, 0, raw.setWidth 64⟩
  | .idDa sel raw => ⟨i.opcode, sel, 0, raw.setWidth 64⟩
  | .idGe sel raw => ⟨i.opcode, sel, 0, raw.setWidth 64⟩
  | .idDp sel raw => ⟨i.opcode, sel, 0, raw.setWidth 64⟩
  | .idEdp sel raw => ⟨i.opcode, sel, 0, raw.setWidth 64⟩
  | .nameNew f0 f1 f2 f3 f4 f5 f6 f7 f8 => packNameNew i.opcode f0 f1 f2 f3 f4 f5 f6 f7 f8
  | .nameAsRaw n => ⟨i.opcode, 0, 0, n⟩
  | .nameFromRaw n => ⟨i.opcode, 0, 0, n⟩
  | .nameIdent n => ⟨i.opcode, 0, 0, n⟩
  | .nameMfr n => ⟨i.opcode, 0, 0, n⟩
  | .nameEcui n => ⟨i.opcode, 0, 0, n⟩
  | .nameFni n => ⟨i.opcode, 0, 0, n⟩
  | .nameFn n => ⟨i.opcode, 0, 0, n⟩
  | .nameVs n => ⟨i.opcode, 0, 0, n⟩
  | .nameVsi n => ⟨i.opcode, 0, 0, n⟩
  | .nameIg n => ⟨i.opcode, 0, 0, n⟩
  | .nameAac n => ⟨i.opcode, 0, 0, n⟩
  | .sigValid sel value => ⟨i.opcode, sel, 0, value.setWidth 64⟩
  | .sigSpec sel value => ⟨i.opcode, sel, 0, value.setWidth 64⟩
  | .sigErr sel value => ⟨i.opcode, sel, 0, value.setWidth 64⟩
  | .sigNa sel value => ⟨i.opcode, sel, 0, value.setWidth 64⟩
  | .sigClass sel value => ⟨i.opcode, sel, 0, value.setWidth 64⟩
  | .parDec code => ⟨i.opcode, 0, 0, code.setWidth 64⟩
  | .parEnc tag => ⟨i.opcode, 0, 0, tag.setWidth 64⟩
  | .parDflt => ⟨i.opcode, 0, 0, 0⟩
  | .cmdDec code => ⟨i.opcode, 0, 0, code.setWidth 64⟩
  | .cmdEnc tag => ⟨i.opcode, 0, 0, tag.setWidth 64⟩
  | .cmdDflt => ⟨i.opcode, 0, 0, 0⟩
  | .slotNew sel v => ⟨i.opcode, sel, 0, v⟩
  | .slotFromRaw sel raw => ⟨i.opcode, sel, 0, raw.setWidth 64⟩
  | .slotAsRaw sel v => ⟨i.opcode, sel, 0, v⟩
  | .slotScale sel => ⟨i.opcode, sel, 0, 0⟩
  | .slotOffset sel => ⟨i.opcode, sel, 0, 0⟩
  | .slotMin sel => ⟨i.opcode, sel, 0, 0⟩
  | .slotMax sel => ⟨i.opcode, sel, 0, 0⟩
  | .slotUnit sel => ⟨i.opcode, sel, 0, 0⟩

/-- The request port of an operation (R45, R50). -/
def encode (i : Instr) : RequestWord := i.request.toWord

/-- The request word whose low `nbits` bits are those of `w`, every bit above them 0. -/
def tableWord (nbits w : Nat) : RequestWord := BitVec.ofNat 144 (w % 2 ^ nbits)

/-- The operation the decoder reads from a word numbered as spec/opcode_table.json numbers it: the table gives
each request as one 144-bit word, bit 0 the least significant bit of `a`. -/
def decodeTableWord (nbits w : Nat) : Option Instr :=
  match decode (tableWord nbits w) with
  | .operation i => some i
  | .reservedOp _ => none

end Sys2Proof
end

