-- ==== Sys2Proof/Machine/Binary64.lean ====
section
/-! DEFINITION. The binary64 numerics of the Slot unit (spec/44_slot.md rule R120, spec/00_scope.md section 6,
spec/93_implementation_defined.md item G1), from the bits up.

A pattern is a sign and a 63-bit magnitude pattern.  Magnitude patterns are ordered as the values they stand for,
below 0x7FF0000000000000 finite, equal to it an infinity, above it a NaN.  Every finite value is a whole number of
units of 2^-1074, the smallest positive value, so the exact result of each operation is a ratio of two naturals in
that unit and `roundMag` rounds it once, to nearest, ties to even. -/

namespace Sys2Proof.Machine.F64

/-- The magnitude pattern: the 63 bits below the sign. -/
def mag (x : F64) : Nat := x.toNat % 2 ^ 63

/-- The magnitude pattern of an infinity. -/
def infMag : Nat := 0x7FF0000000000000

/-- A NaN. -/
def isNaN (x : F64) : Bool := infMag < mag x

/-- An infinity of either sign. -/
def isInf (x : F64) : Bool := mag x == infMag

/-- Neither a NaN nor an infinity. -/
def isFinite (x : F64) : Bool := mag x < infMag

/-- The pattern with a sign and a magnitude pattern. -/
def ofSignMag (neg : Bool) (m : Nat) : F64 := BitVec.ofNat 64 (if neg then 2 ^ 63 + m else m)

/-- The result of an operation whose exact result is not defined.  Which NaN is DESIGN CHOICE, safe
(notes/assumptions/4.md): a NaN is never in bounds (R122), so no response carries it. -/
def nan : F64 := 0x7FF8000000000000#64

/-- Number of units of 2^-1074 in 1. -/
def unitsPerOne : Nat := pow2 1074

/-- The value of a finite magnitude pattern in units of 2^-1074: exponent field 0 is subnormal. -/
def unitsOfMag (m : Nat) : Nat :=
  if m < 2 ^ 52 then m else (2 ^ 52 + m % 2 ^ 52) * pow2 (m / 2 ^ 52 - 1)

/-- The absolute value of a finite pattern in units of 2^-1074. -/
def units (x : F64) : Nat := unitsOfMag (mag x)

/-- The value of a finite pattern in units of 2^-1074. -/
def toUnits (x : F64) : Int := if x.msb then -(units x : Int) else units x

/-- `num / den` rounded to a whole number: to nearest, ties to even. -/
def roundDiv (num den : Nat) : Nat :=
  let q := num / den
  let r := num % den
  if den < 2 * r ∨ (2 * r = den ∧ q % 2 = 1) then q + 1 else q

/-- The exponent the result of rounding `num / den` units has: 53 significant bits are kept. -/
def roundShift (num den : Nat) : Nat := floorLog2 (num / den) - 52

/-- The magnitude pattern of `num / den` units of 2^-1074, rounded once, to nearest, ties to even; a magnitude
past the largest finite value gives the infinity. -/
def roundMag (num den : Nat) : Nat :=
  let k := roundShift num den
  Nat.min (k * 2 ^ 52 + roundDiv num (den * pow2 k)) infMag

/-- `x` with the other sign. -/
def fneg (x : F64) : F64 := x ^^^ 0x8000000000000000#64

/-- Addition (R120).  An exact zero sum is `+0.0` unless both operands are negative. -/
def fadd (x y : F64) : F64 :=
  if isNaN x || isNaN y then nan
  else if isInf x then (if isInf y && x.msb != y.msb then nan else x)
  else if isInf y then y
  else
    let s := toUnits x + toUnits y
    if s = 0 then ofSignMag (x.msb && y.msb) 0 else ofSignMag (s < 0) (roundMag s.natAbs 1)

/-- Subtraction (R120). -/
def fsub (x y : F64) : F64 := fadd x (fneg y)

/-- Multiplication (R120).  A product has 2^-2148 for its exact unit. -/
def fmul (x y : F64) : F64 :=
  let neg := x.msb != y.msb
  if isNaN x || isNaN y then nan
  else if isInf x then (if units y = 0 && isFinite y then nan else ofSignMag neg infMag)
  else if isInf y then (if units x = 0 then nan else ofSignMag neg infMag)
  else ofSignMag neg (roundMag (units x * units y) unitsPerOne)

/-- Division (R120). -/
def fdiv (x y : F64) : F64 :=
  let neg := x.msb != y.msb
  if isNaN x || isNaN y then nan
  else if isInf x then (if isInf y then nan else ofSignMag neg infMag)
  else if isInf y then ofSignMag neg 0
  else if units y = 0 then (if units x = 0 then nan else ofSignMag neg infMag)
  else ofSignMag neg (roundMag (units x * unitsPerOne) (units y))

/-- Patterns that are no NaN, in the order of their values; `-0.0` and `+0.0` share a place. -/
def key (x : F64) : Int := if x.msb then -(mag x : Int) else mag x

/-- Quiet less-or-equal, false when either operand is a NaN (R120). -/
def fle (x y : F64) : Bool := !isNaN x && !isNaN y && decide (key x ≤ key y)

/-- Quiet less-than, false when either operand is a NaN. -/
def flt (x y : F64) : Bool := !isNaN x && !isNaN y && decide (key x < key y)

/-- The whole part of the absolute value of a finite pattern. -/
def wholePart (x : F64) : Nat := units x / unitsPerOne

/-- `trunc`: a finite value rounded toward zero to an integral one of the same sign (R125). -/
def trunc (x : F64) : F64 :=
  if isFinite x then ofSignMag x.msb (roundMag (wholePart x * unitsPerOne) 1) else x

/-- `f64_of_u32`: exact (R121). -/
def ofU32 (n : BitVec 32) : F64 := ofSignMag false (roundMag (n.toNat * unitsPerOne) 1)

/-- `u32_of_f64`: defined only for an integral value from 0 to 2^32 - 1, and for `-0.0` (spec/00_scope.md
section 6). -/
def toU32? (x : F64) : Option (BitVec 32) :=
  if isFinite x && units x % unitsPerOne == 0 && wholePart x < 2 ^ 32 && (!x.msb || units x == 0) then
    some (BitVec.ofNat 32 (wholePart x))
  else none

/-- -1.0. -/
def minusOne : F64 := 0xBFF0000000000000#64

/-- 2^32. -/
def two32 : F64 := 0x41F0000000000000#64

end Sys2Proof.Machine.F64
end

