-- ==== Sys2Proof/Config.lean ====
section
/-! DEFINITION. The configuration record `CFG` (spec/00_scope.md rule R11): exactly the OPEN parameters, that is
the signal range table and the slot definition table.  Which records are configurations of CORE is
`Cfg.wf` in Sys2Proof/Machine/Configuration.lean (R153). -/

namespace Sys2Proof

/-- The nine supported signal widths (R94). -/
inductive SigWidth where
  | w4 | w8 | w10 | w12 | w16 | w20 | w24 | w28 | w32
deriving DecidableEq, Repr

/-- The three cut points of one width: each a `u32` (R36, R96). -/
structure CutPoints where
  /-- `VMAX[W]`: the largest valid value. -/
  vmax : BitVec 32
  /-- `SMAX[W]`: the largest parameter-specific value. -/
  smax : BitVec 32
  /-- `EMAX[W]`: the largest error value. -/
  emax : BitVec 32
deriving DecidableEq, Repr

/-- The signal range table, one row for each width (R36, R95). -/
structure RangeTable where
  w4  : CutPoints
  w8  : CutPoints
  w10 : CutPoints
  w12 : CutPoints
  w16 : CutPoints
  w20 : CutPoints
  w24 : CutPoints
  w28 : CutPoints
  w32 : CutPoints
deriving DecidableEq, Repr

/-- A slot definition: four binary64 values and an opaque label (R27). -/
structure SlotDef where
  scale  : F64
  offset : F64
  min    : F64
  max    : F64
  unit   : BitVec 64
deriving DecidableEq, Repr

/-- The configuration record `CFG` (R11): it is read-only and constant for the life of an instance (R19).
`NSLOT` is the length of `slots`. -/
structure Cfg where
  ranges : RangeTable
  slots  : List SlotDef
deriving DecidableEq, Repr

/-- `CFG.NSLOT` (R117). -/
def Cfg.nslot (c : Cfg) : Nat := c.slots.length

/-- A row with its cut points at `2^W - 6`, `2^W - 5` and `2^W - 2`, the pattern of configuration T1 of
spec/95_test_vectors.md section 0. -/
def Config.exampleRow (w : Nat) : CutPoints :=
  ⟨BitVec.ofNat 32 (2 ^ w - 6), BitVec.ofNat 32 (2 ^ w - 5), BitVec.ofNat 32 (2 ^ w - 2)⟩

/-- Slot 0 with its unit label (R118): scale 1.0, offset 0.0, bounds [0.0, 64255.0].  The label is OPEN. -/
def Config.slot0 (unit : BitVec 64) : SlotDef :=
  ⟨0x3FF0000000000000#64, 0x0000000000000000#64, 0x0000000000000000#64, 0x40EF5FE000000000#64, unit⟩

/-- DESIGN CHOICE (notes/assumptions/1.md), unsafe: the configuration that stands in `State.reset`.  The spec
leaves `CFG` OPEN; the host's interface wants one state after reset, so it holds the one complete configuration
the spec writes out, the synthetic T1 of spec/95_test_vectors.md section 0.  No meaning and no statement reads
this constant: every one takes the configuration from `State.cfg`. -/
def Config.atReset : Cfg where
  ranges :=
    { w4 := Config.exampleRow 4, w8 := Config.exampleRow 8, w10 := Config.exampleRow 10,
      w12 := Config.exampleRow 12, w16 := Config.exampleRow 16, w20 := Config.exampleRow 20,
      w24 := Config.exampleRow 24, w28 := Config.exampleRow 28, w32 := Config.exampleRow 32 }
  slots :=
    [Config.slot0 0,
     ⟨0x3FE0000000000000#64, 0xC044000000000000#64, 0xC044000000000000#64, 0x4059000000000000#64, 1⟩,
     ⟨0x3FB999999999999A#64, 0x0000000000000000#64, 0x0000000000000000#64, 0x40B9198000000000#64, 2⟩]

end Sys2Proof
end

