-- ==== Sys2Proof/Machine/State.lean ====
section
/-! DEFINITION. The state of the model.  CORE itself holds no state (spec/10_state.md rule R13): it is a function
of the configuration and the request (R9).  The host's interface gives a step one argument and one result, so
`State` holds the step's arguments and its result: the configuration record, the request port and the response
port.  There is no register, no program counter, no flag, no memory (R14 to R17, R20). -/

namespace Sys2Proof.Machine

/-- The outcome names of the `status` field (R51). -/
inductive Status where
  | ok | absent | outOfRange | unrecognizedVariant | unrecognizedCode | valueOutOfBounds | illegalRequest
deriving DecidableEq, Repr

/-- The three fields of a response (R46). -/
structure Response where
  status : Status
  info   : Byte
  r      : Word
deriving DecidableEq, Repr

/-- The step's two arguments (R9) and its result. -/
structure State where
  /-- The configuration record `CFG` (R11, R19); no operation writes it. -/
  cfg : Cfg
  /-- The request port `REQ[143:0]` (R45), driven by the host; no operation writes it. -/
  req : RequestWord
  /-- The response port `RSP[75:0]` (R46). -/
  rsp : ResponseWord
deriving DecidableEq, Repr

/-- CORE has no fault (R143; spec/93_implementation_defined.md: "CORE has no fault and cannot hang"), so no reason
for one exists and no step stops with one.  Safe: nothing can be proved of a fault. -/
inductive Fault where
deriving DecidableEq, Repr

/-- Why a step is refused. -/
inductive Refusal where
  /-- Raised by `exec` for an operation that has no meaning yet, with its mnemonic.  Safe. -/
  | notModelled (mnemonic : String)
  /-- Raised by `step` when `State.cfg` is not a configuration of CORE (R153: "a model refuses it"), and by
  SLOT.ASRAW when its quotient converts to no `u32`, which only such a record makes possible (R119, R125).  Safe. -/
  | illFormedConfiguration
deriving DecidableEq, Repr

/-- The state before the first request.  CORE has no reset value to give (R30).  The configuration is
`Config.atReset`, DESIGN CHOICE, unsafe (notes/assumptions/1.md).  The request port holds 0, DESIGN CHOICE, unsafe
(notes/assumptions/2.md), and the response port the response the all-zero request gets, `ILLEGAL_REQUEST(0)`, since
the response always reflects the request (R152). -/
def State.reset : State where
  cfg := Config.atReset
  req := 0
  rsp := 0x6000000000000000000#76

end Sys2Proof.Machine
end

