-- ==== Sys2Proof/Machine/Flags.lean ====
section
/-! DEFINITION. CORE keeps no flag (spec/10_state.md rule R16): the only condition it reports is the `status` and
`info` of the response to the request that caused it.  This file gives the status codes (spec/30_encoding.md rule
R51), the two ways an evaluation ends (spec/00_scope.md section 6: `respond` and `raise`), and the layout of the
response port (R46). -/

namespace Sys2Proof.Machine

/-- The status codes (R51); 7 to 15 are never produced. -/
def Status.code : Status → BitVec 4
  | .ok => 0
  | .absent => 1
  | .outOfRange => 2
  | .unrecognizedVariant => 3
  | .unrecognizedCode => 4
  | .valueOutOfBounds => 5
  | .illegalRequest => 6

/-- `RSP = {status, info, r}` (R46). -/
def Response.word (p : Response) : ResponseWord := p.status.code ++ p.info ++ p.r

/-- `respond(v)`: `status = OK`, `info = 0`, `r = zext_64(v)` (R52). -/
def respond {n : Nat} (v : BitVec n) : Response := ⟨.ok, 0, v.setWidth 64⟩

/-- `raise <Status>(info)`: an absent result, `r = 0` (R52).  It is no trap: it saves nothing and changes nothing
but the response (R143). -/
def absentResult (status : Status) (info : Byte) : Response := ⟨status, info, 0⟩

/-- A Boolean on a port: 1 for true, 0 for false (R52). -/
def boolWord (c : Bool) : Word := if c then 1 else 0

/-- `info` of a reserved `op` (R51, R53). -/
def infoReservedOp : Byte := 0

/-- `info` of a `sel` outside the operation's legal set (R51, R54). -/
def infoReservedSel : Byte := 1

/-- `info` of an operand that is no member of its variant set (R51). -/
def infoNoVariant : Byte := 2

end Sys2Proof.Machine
end

