-- ==== Sys2Proof/Machine/Operands.lean ====
section
/-! DEFINITION. Operand forms: how `sel` and the operand words of a request are read, by format (spec/30_encoding.md
rules R48, R50), and the value types operands and results have (spec/10_state.md rules R21 to R26).  A `sel` outside
the legal set ends the evaluation before anything else is read (R54, R141). -/

namespace Sys2Proof.Machine

/-- `raise ILLEGAL_REQUEST(1)` (R54). -/
def illegalSel : Response := absentResult .illegalRequest infoReservedSel

/-! Format I -/

/-- A CAN identifier: a tagged raw value (R21). -/
inductive Identifier where
  | standard (raw : BitVec 11)
  | extended (raw : BitVec 29)
deriving DecidableEq, Repr

/-- The identifier operand (R64): `sel[0]` is the tag, `sel[7:1]` must be 0; a Standard identifier reads only the
low 11 bits. -/
def identifier? (sel : Byte) (raw : BitVec 29) : Option Identifier :=
  match sel.toNat with
  | 0 => some (.standard (raw.extractLsb' 0 11))
  | 1 => some (.extended raw)
  | _ => none

/-- Format I: evaluates `k` on the identifier operand after the `sel` check (R64). -/
def withIdentifier (sel : Byte) (raw : BitVec 29) (k : Identifier → Response) : Response :=
  match identifier? sel raw with
  | some x => k x
  | none => illegalSel

/-- `raise ABSENT(0)`: an Extended-only operation on a Standard identifier (R65). -/
def absent : Response := absentResult .absent 0

/-- Format I for the Extended-only operations: a Standard identifier is `ABSENT` (R65). -/
def withExtended (sel : Byte) (raw : BitVec 29) (k : BitVec 29 → Response) : Response :=
  withIdentifier sel raw fun
    | .standard _ => absent
    | .extended x => k x

/-! Formats N and NP -/

/-- The nine fields of a Name, in the source's order (R76). -/
inductive NameField where
  | identity | manufacturerCode | ecuInstance | functionInstance | function | vehicleSystem
  | vehicleSystemInstance | industryGroup | arbitraryAddressCapable
deriving DecidableEq, Repr

/-- The index of a field, which `OUT_OF_RANGE` reports (R76, R78). -/
def NameField.index : NameField → Byte
  | .identity => 0
  | .manufacturerCode => 1
  | .ecuInstance => 2
  | .functionInstance => 3
  | .function => 4
  | .vehicleSystem => 5
  | .vehicleSystemInstance => 6
  | .industryGroup => 7
  | .arbitraryAddressCapable => 8

/-- The one table of (offset, width) that packing and the accessors share (R77, R93); bit 48 is in no field. -/
def NameField.place : NameField → Nat × Nat
  | .identity => (0, 21)
  | .manufacturerCode => (21, 11)
  | .ecuInstance => (32, 3)
  | .functionInstance => (35, 5)
  | .function => (40, 8)
  | .vehicleSystem => (49, 7)
  | .vehicleSystemInstance => (56, 4)
  | .industryGroup => (60, 3)
  | .arbitraryAddressCapable => (63, 1)

/-- The lowest bit of a field. -/
def NameField.offset (f : NameField) : Nat := f.place.1

/-- The number of bits of a field (R76). -/
def NameField.width (f : NameField) : Nat := f.place.2

/-- The largest value of a field (R76). -/
def NameField.limit (f : NameField) : Word := BitVec.ofNat 64 (2 ^ f.width - 1)

/-- A field of a Name, by shift and mask (R83 to R91). -/
def NameField.get (f : NameField) (n : Word) : Word := (n >>> f.offset) &&& f.limit

/-- A value at its field's place in a Name (R80). -/
def NameField.put (f : NameField) (v : Word) : Word := v <<< f.offset

/-- The eight bytes of a 64-bit word, `B[i] = N[8i+7 : 8i]` on lane `i` (R31, R32). -/
def lanes (n : Word) : List Byte := (List.range 8).map fun i => n.extractLsb' (8 * i) 8

/-- `B[0] | (B[1] << 8) | ... ` (R82). -/
def ofLanes : List Byte → Word
  | [] => 0
  | b :: bs => b.setWidth 64 ||| (ofLanes bs <<< 8)

/-- The industry groups (R23): the source names only code 3. -/
inductive IndustryGroup where
  | ig0 | ig1 | ig2 | construction | ig4 | ig5
deriving DecidableEq, Repr

/-- The industry group of a 3-bit code; 6 and 7 are reserved and name none (R23, R90). -/
def IndustryGroup.ofCode? (code : Nat) : Option IndustryGroup :=
  match code with
  | 0 => some .ig0
  | 1 => some .ig1
  | 2 => some .ig2
  | 3 => some .construction
  | 4 => some .ig4
  | 5 => some .ig5
  | _ => none

/-- The tag of an industry group is its code (R23). -/
def IndustryGroup.tag : IndustryGroup → BitVec 3
  | .ig0 => 0
  | .ig1 => 1
  | .ig2 => 2
  | .construction => 3
  | .ig4 => 4
  | .ig5 => 5

/-! Format S -/

/-- The width a width code selects (R94). -/
def sigWidth? (sel : Byte) : Option SigWidth :=
  match sel.toNat with
  | 0 => some .w4
  | 1 => some .w8
  | 2 => some .w10
  | 3 => some .w12
  | 4 => some .w16
  | 5 => some .w20
  | 6 => some .w24
  | 7 => some .w28
  | 8 => some .w32
  | _ => none

end Sys2Proof.Machine

namespace Sys2Proof

/-- `W`, the number of bits (R94). -/
def SigWidth.bits : SigWidth → Nat
  | .w4 => 4
  | .w8 => 8
  | .w10 => 10
  | .w12 => 12
  | .w16 => 16
  | .w20 => 20
  | .w24 => 24
  | .w28 => 28
  | .w32 => 32

/-- The row of a width in the range table (R36). -/
def RangeTable.row (t : RangeTable) : SigWidth → CutPoints
  | .w4 => t.w4
  | .w8 => t.w8
  | .w10 => t.w10
  | .w12 => t.w12
  | .w16 => t.w16
  | .w20 => t.w20
  | .w24 => t.w24
  | .w28 => t.w28
  | .w32 => t.w32

/-- The nine widths in increasing order (R94). -/
def SigWidth.all : List SigWidth := [.w4, .w8, .w10, .w12, .w16, .w20, .w24, .w28, .w32]

end Sys2Proof

namespace Sys2Proof.Machine

/-- The signal operand `v = a[W-1:0]` (R94). -/
def sigOperand (w : SigWidth) (value : BitVec 32) : Nat := value.toNat % 2 ^ w.bits

/-- Format S: evaluates `k` on the selected row and the operand after the `sel` check (R94). -/
def withSignal (cfg : Cfg) (sel : Byte) (value : BitVec 32) (k : CutPoints → Nat → Response) : Response :=
  match sigWidth? sel with
  | some w => k (cfg.ranges.row w) (sigOperand w value)
  | none => illegalSel

/-! Format C -/

/-- The Parameter variants (R25). -/
inductive Parameter where
  | disabled | enabled | isError | notAvailable
deriving DecidableEq, Repr

/-- The tag of a Parameter, which is its wire code (R25, R104). -/
def Parameter.tag : Parameter → BitVec 2
  | .disabled => 0
  | .enabled => 1
  | .isError => 2
  | .notAvailable => 3

/-- The Parameter of a wire code or tag (R104): 0 to 3, and no other. -/
def Parameter.ofCode? (c : Byte) : Option Parameter :=
  match c.toNat with
  | 0 => some .disabled
  | 1 => some .enabled
  | 2 => some .isError
  | 3 => some .notAvailable
  | _ => none

/-- The Command variants (R26). -/
inductive Command where
  | disable | enable | noAction
deriving DecidableEq, Repr

/-- The tag of a Command, which is its wire code (R26, R105). -/
def Command.tag : Command → BitVec 2
  | .disable => 0
  | .enable => 1
  | .noAction => 3

/-- The Command of a wire code or tag (R105): 0, 1 and 3; 2 is reserved and rejected. -/
def Command.ofCode? (c : Byte) : Option Command :=
  match c.toNat with
  | 0 => some .disable
  | 1 => some .enable
  | 3 => some .noAction
  | _ => none

/-! Formats F, U and K -/

/-- Formats F, U and K: evaluates `k` on entry `sel` of the slot table after the `sel` check (R117). -/
def withSlot (cfg : Cfg) (sel : Byte) (k : SlotDef → Response) : Response :=
  match cfg.slots[sel.toNat]? with
  | some d => k d
  | none => illegalSel

end Sys2Proof.Machine
end

