-- ==== Sys2Proof/Machine/Configuration.lean ====
section
/-! DEFINITION. Which configuration records are configurations of CORE (spec/70_reset_and_hazards.md rule R153,
spec/43_signal.md rules R96, R97, spec/44_slot.md rules R118, R119). -/

namespace Sys2Proof

open Machine

/-- `0 <= VMAX < SMAX < EMAX < 2^W - 1` (R96). -/
def CutPoints.wf (c : CutPoints) (w : SigWidth) : Bool :=
  c.vmax.toNat < c.smax.toNat && c.smax.toNat < c.emax.toNat && c.emax.toNat < 2 ^ w.bits - 1

/-- Every row is well formed, and the 8-bit row has `VMAX` = 0xFA and `EMAX` = 0xFE (R153 a, b). -/
def RangeTable.wf (t : RangeTable) : Bool :=
  SigWidth.all.all (fun w => (t.row w).wf w) && t.w8.vmax == 0xFA#32 && t.w8.emax == 0xFE#32

/-- `q = (v - offset) / scale`, the encode quotient (R119 d, R125). -/
def SlotDef.quotient (d : SlotDef) (v : F64) : F64 := F64.fdiv (F64.fsub v d.offset) d.scale

/-- `-1 < q < 2^32` (R119 d). -/
def SlotDef.encodable (d : SlotDef) (v : F64) : Bool :=
  F64.flt F64.minusOne (d.quotient v) && F64.flt (d.quotient v) F64.two32

/-- A well-formed slot definition (R119): (a) finite numbers, (b) a scale that is not zero, (c) `min <= max`,
(d) an encode quotient in range at `min` and at `max`, which the rule says is enough for every value between. -/
def SlotDef.wf (d : SlotDef) : Bool :=
  F64.isFinite d.scale && F64.isFinite d.offset && F64.isFinite d.min && F64.isFinite d.max &&
    F64.units d.scale != 0 && F64.fle d.min d.max && d.encodable d.min && d.encodable d.max

/-- Entry 0 is the source's slot, whatever its unit label (R118, R153 d). -/
def SlotDef.isSlot0 (d : SlotDef) : Bool := d == Config.slot0 d.unit

/-- A configuration of CORE (R153). -/
def Cfg.wf (c : Cfg) : Bool :=
  c.ranges.wf && 1 ≤ c.nslot && c.nslot ≤ 256 && c.slots.all SlotDef.wf && c.slots.head?.any SlotDef.isSlot0

end Sys2Proof
end

