-- ==== Sys2Proof/Machine/Ops.lean ====
section
/-! DEFINITION. The named operations every meaning shares: reading the request port, putting a response on the
response port, the answer to a reserved `op`.  CORE takes no exception and returns from none (spec/60_exceptions.md
rules R143, R144): an absent result is a response like any other, so `answer` is the one way an evaluation ends. -/

namespace Sys2Proof.Machine

/-- The outcome of a meaning. -/
abbrev Result := Host.Outcome State Fault Refusal

/-- The evaluation ends with this response on the response port; nothing else changes (R9, R143). -/
def State.answer (s : State) (p : Response) : Result := .next { s with rsp := p.word }

/-- What stands on the request port (R47, R152). -/
def State.fetch (s : State) : Decoded := decode s.req

/-- A reserved `op` gets `ILLEGAL_REQUEST(0)`, whatever the other fields hold (R53). -/
def execReservedOp (_op : Byte) (s : State) : Result := s.answer (absentResult .illegalRequest infoReservedOp)

/-- The host puts a request on the request port (R8). -/
def State.present (s : State) (q : RequestWord) : State := { s with req := q }

/-- The same ports on an instance with another configuration. -/
def State.withCfg (s : State) (c : Cfg) : State := { s with cfg := c }

end Sys2Proof.Machine
end

