-- ==== Sys2Proof/Machine/Identifier.lean ====
section
/-! DEFINITION. The Identifier unit (spec/41_identifier.md): the fields of an 11-bit or 29-bit CAN identifier.
Field positions are those of rule R63; the `sel` check and the Standard test stand in Operands.lean (R64, R65). -/

namespace Sys2Proof.Machine

/-- PDU format, `raw[23:16]` (R63). -/
def pduFormat (raw : BitVec 29) : Byte := raw.extractLsb' 16 8

/-- PDU specific, `raw[15:8]` (R63). -/
def pduSpecific (raw : BitVec 29) : Byte := raw.extractLsb' 8 8

/-- ID.PRIO (R66): `raw[10:8]` of a Standard identifier, `raw[28:26]` of an Extended one. -/
def execIdPrio (sel : Byte) (raw : BitVec 29) (s : State) : Result :=
  s.answer <| withIdentifier sel raw fun
    | .standard x => respond (x.extractLsb' 8 3)
    | .extended x => respond (x.extractLsb' 26 3)

/-- ID.SA (R67): `raw[7:0]` of both variants. -/
def execIdSa (sel : Byte) (raw : BitVec 29) (s : State) : Result :=
  s.answer <| withIdentifier sel raw fun
    | .standard x => respond (x.extractLsb' 0 8)
    | .extended x => respond (x.extractLsb' 0 8)

/-- ID.PF (R68). -/
def execIdPf (sel : Byte) (raw : BitVec 29) (s : State) : Result :=
  s.answer <| withExtended sel raw fun x => respond (pduFormat x)

/-- ID.PS (R69): the byte, whatever the PDU format is. -/
def execIdPs (sel : Byte) (raw : BitVec 29) (s : State) : Result :=
  s.answer <| withExtended sel raw fun x => respond (pduSpecific x)

/-- ID.DA (R70): PDU specific of a PDU1 identifier (PDU format at most 239), else absent. -/
def execIdDa (sel : Byte) (raw : BitVec 29) (s : State) : Result :=
  s.answer <| withExtended sel raw fun x => if pduFormat x ≤ 239 then respond (pduSpecific x) else absent

/-- ID.GE (R71): PDU specific of a PDU2 identifier (PDU format at least 240), else absent. -/
def execIdGe (sel : Byte) (raw : BitVec 29) (s : State) : Result :=
  s.answer <| withExtended sel raw fun x => if 240 ≤ pduFormat x then respond (pduSpecific x) else absent

/-- ID.DP (R72): `raw[24]`. -/
def execIdDp (sel : Byte) (raw : BitVec 29) (s : State) : Result :=
  s.answer <| withExtended sel raw fun x => respond (x.extractLsb' 24 1)

/-- ID.EDP (R73): `raw[25]`. -/
def execIdEdp (sel : Byte) (raw : BitVec 29) (s : State) : Result :=
  s.answer <| withExtended sel raw fun x => respond (x.extractLsb' 25 1)

end Sys2Proof.Machine
end

