-- ==== Sys2Proof/Machine/Name.lean ====
section
/-! DEFINITION. The Name unit (spec/42_name.md): the 64-bit NAME packed, exported, imported and unpacked.  The
(offset, width) table of rule R77 is `NameField.place` in Operands.lean, used by packing and accessors alike (R93). -/

namespace Sys2Proof.Machine

/-- The nine arguments of NAME.NEW by field, in check order (R79, R80). -/
def nameArguments (identity : BitVec 32) (manufacturerCode : BitVec 16) (ecuInstance functionInstance function
    vehicleSystem vehicleSystemInstance industryGroup arbitraryAddressCapable : Byte) : List (NameField × Word) :=
  [(.identity, identity.setWidth 64),
   (.manufacturerCode, manufacturerCode.setWidth 64),
   (.ecuInstance, ecuInstance.setWidth 64),
   (.functionInstance, functionInstance.setWidth 64),
   (.function, function.setWidth 64),
   (.vehicleSystem, vehicleSystem.setWidth 64),
   (.vehicleSystemInstance, vehicleSystemInstance.setWidth 64),
   (.industryGroup, industryGroup.setWidth 64),
   (.arbitraryAddressCapable, arbitraryAddressCapable.setWidth 64)]

/-- The first field, in check order, whose value exceeds its width (R80). -/
def firstOffender (args : List (NameField × Word)) : Option NameField :=
  (args.find? fun p => decide (p.1.limit < p.2)).map (·.1)

/-- The fields at their places, the reserved bit 48 at 0 (R80, R78). -/
def packName (args : List (NameField × Word)) : Word := args.foldr (fun p n => p.1.put p.2 ||| n) 0

/-- NAME.NEW (R80): the Name, or `OUT_OF_RANGE` with the index of the first offending field. -/
def execNameNew (identity : BitVec 32) (manufacturerCode : BitVec 16) (ecuInstance functionInstance function
    vehicleSystem vehicleSystemInstance industryGroup arbitraryAddressCapable : Byte) (s : State) : Result :=
  let args := nameArguments identity manufacturerCode ecuInstance functionInstance function vehicleSystem
    vehicleSystemInstance industryGroup arbitraryAddressCapable
  s.answer <|
    match firstOffender args with
    | some f => absentResult .outOfRange f.index
    | none => respond (packName args)

/-- NAME.ASRAW (R81): the eight wire bytes on lanes 0 to 7. -/
def execNameAsRaw (n : Word) (s : State) : Result := s.answer <| respond (ofLanes (lanes n))

/-- NAME.FROMRAW (R82): the Name of the eight wire bytes on lanes 0 to 7. -/
def execNameFromRaw (bytes : Word) (s : State) : Result := s.answer <| respond (ofLanes (lanes bytes))

/-- A plain accessor (R83 to R89, R91). -/
def answerField (f : NameField) (n : Word) (s : State) : Result := s.answer <| respond (f.get n)

/-- NAME.IDENT (R83). -/
def execNameIdent (n : Word) (s : State) : Result := answerField .identity n s

/-- NAME.MFR (R84). -/
def execNameMfr (n : Word) (s : State) : Result := answerField .manufacturerCode n s

/-- NAME.ECUI (R85). -/
def execNameEcui (n : Word) (s : State) : Result := answerField .ecuInstance n s

/-- NAME.FNI (R86). -/
def execNameFni (n : Word) (s : State) : Result := answerField .functionInstance n s

/-- NAME.FN (R87). -/
def execNameFn (n : Word) (s : State) : Result := answerField .function n s

/-- NAME.VS (R88). -/
def execNameVs (n : Word) (s : State) : Result := answerField .vehicleSystem n s

/-- NAME.VSI (R89). -/
def execNameVsi (n : Word) (s : State) : Result := answerField .vehicleSystemInstance n s

/-- NAME.IG (R90): the industry group's tag, or `UNRECOGNIZED_VARIANT` with the code when it is 6 or 7. -/
def execNameIg (n : Word) (s : State) : Result :=
  let code := NameField.industryGroup.get n
  s.answer <|
    match IndustryGroup.ofCode? code.toNat with
    | some g => respond g.tag
    | none => absentResult .unrecognizedVariant (code.setWidth 8)

/-- NAME.AAC (R91). -/
def execNameAac (n : Word) (s : State) : Result := answerField .arbitraryAddressCapable n s

end Sys2Proof.Machine
end

