-- ==== Sys2Proof/Machine/Signal.lean ====
section
/-! DEFINITION. The Signal unit (spec/43_signal.md): the range classifier and the Parameter and Command conversions. -/

namespace Sys2Proof.Machine

/-- The four classes (R24). -/
inductive SignalClass where
  | valid | specific | error | notAvailable
deriving DecidableEq, Repr

/-- Whether `v` lies in a class's range (R96, R99 to R102). -/
def inClass (c : CutPoints) (v : Nat) : SignalClass → Bool
  | .valid => v ≤ c.vmax.toNat
  | .specific => c.vmax.toNat < v && v ≤ c.smax.toNat
  | .error => c.smax.toNat < v && v ≤ c.emax.toNat
  | .notAvailable => c.emax.toNat < v

/-- A predicate operation: the Boolean of one class. -/
def answerClass (k : SignalClass) (sel : Byte) (value : BitVec 32) (s : State) : Result :=
  s.answer <| withSignal s.cfg sel value fun c v => respond (boolWord (inClass c v k))

/-- SIG.VALID (R99). -/
def execSigValid (sel : Byte) (value : BitVec 32) (s : State) : Result := answerClass .valid sel value s

/-- SIG.SPEC (R100). -/
def execSigSpec (sel : Byte) (value : BitVec 32) (s : State) : Result := answerClass .specific sel value s

/-- SIG.ERR (R101). -/
def execSigErr (sel : Byte) (value : BitVec 32) (s : State) : Result := answerClass .error sel value s

/-- SIG.NA (R102). -/
def execSigNa (sel : Byte) (value : BitVec 32) (s : State) : Result := answerClass .notAvailable sel value s

/-- `c[3:0]`: bit 0 Valid, bit 1 Specific, bit 2 Error, bit 3 NotAvailable (R24, R103). -/
def classWord (c : CutPoints) (v : Nat) : BitVec 4 :=
  BitVec.ofBool (inClass c v .notAvailable) ++ BitVec.ofBool (inClass c v .error) ++
    BitVec.ofBool (inClass c v .specific) ++ BitVec.ofBool (inClass c v .valid)

/-- SIG.CLASS (R103): the four predicates at once. -/
def execSigClass (sel : Byte) (value : BitVec 32) (s : State) : Result :=
  s.answer <| withSignal s.cfg sel value fun c v => respond (classWord c v)

/-- PAR.DEC (R107): the Parameter's tag, or `UNRECOGNIZED_CODE` with the code. -/
def execParDec (code : Byte) (s : State) : Result :=
  s.answer <|
    match Parameter.ofCode? code with
    | some p => respond p.tag
    | none => absentResult .unrecognizedCode code

/-- PAR.ENC (R108): the Parameter's wire code; a tag of no Parameter is `ILLEGAL_REQUEST(2)`. -/
def execParEnc (tag : Byte) (s : State) : Result :=
  s.answer <|
    match Parameter.ofCode? tag with
    | some p => respond p.tag
    | none => absentResult .illegalRequest infoNoVariant

/-- PAR.DFLT (R109): NotAvailable. -/
def execParDflt (s : State) : Result := s.answer <| respond Parameter.notAvailable.tag

/-- CMD.DEC (R110): the Command's tag, or `UNRECOGNIZED_CODE` with the code. -/
def execCmdDec (code : Byte) (s : State) : Result :=
  s.answer <|
    match Command.ofCode? code with
    | some p => respond p.tag
    | none => absentResult .unrecognizedCode code

/-- CMD.ENC (R111): the Command's wire code; a tag of no Command is `ILLEGAL_REQUEST(2)`. -/
def execCmdEnc (tag : Byte) (s : State) : Result :=
  s.answer <|
    match Command.ofCode? tag with
    | some p => respond p.tag
    | none => absentResult .illegalRequest infoNoVariant

/-- CMD.DFLT (R112): NoAction. -/
def execCmdDflt (s : State) : Result := s.answer <| respond Command.noAction.tag

end Sys2Proof.Machine
end

