-- ==== Sys2Proof/Machine/Slot.lean ====
section
/-! DEFINITION. The Slot unit (spec/44_slot.md): the linear transfer function of a slot definition, and its five
constants.  The numerics are those of Binary64.lean (R120). -/

namespace Sys2Proof.Machine

/-- In bounds: `min <= v <= max`, the only bounds test of the unit (R122). -/
def inBounds (d : SlotDef) (v : F64) : Bool := F64.fle d.min v && F64.fle v d.max

/-- `raise VALUE_OUT_OF_BOUNDS(0)`. -/
def outOfBounds : Response := absentResult .valueOutOfBounds 0

/-- `physical = raw * scale + offset`, two operations and two roundings (R120, R124). -/
def physical (d : SlotDef) (raw : BitVec 32) : F64 := F64.fadd (F64.fmul (F64.ofU32 raw) d.scale) d.offset

/-- `u32_of_f64(trunc((v - offset) / scale))` (R125). -/
def rawOf? (d : SlotDef) (v : F64) : Option (BitVec 32) := F64.toU32? (F64.trunc (d.quotient v))

/-- SLOT.NEW (R123): the operand's own bits when in bounds. -/
def execSlotNew (sel : Byte) (v : F64) (s : State) : Result :=
  s.answer <| withSlot s.cfg sel fun d => if inBounds d v then respond v else outOfBounds

/-- SLOT.FROMRAW (R124): the physical value of a raw integer when in bounds. -/
def execSlotFromRaw (sel : Byte) (raw : BitVec 32) (s : State) : Result :=
  s.answer <| withSlot s.cfg sel fun d =>
    if inBounds d (physical d raw) then respond (physical d raw) else outOfBounds

/-- SLOT.ASRAW (R125): the raw integer of a physical value in bounds, rounded toward zero.  The conversion is
defined for every value in bounds of a well-formed slot (R119 d); for a record that is no configuration of CORE the
rule says nothing and the request is refused (R153). -/
def execSlotAsRaw (sel : Byte) (v : F64) (s : State) : Result :=
  match s.cfg.slots[sel.toNat]? with
  | none => s.answer illegalSel
  | some d =>
    if inBounds d v then
      match rawOf? d v with
      | some raw => s.answer (respond raw)
      | none => .refused .illFormedConfiguration
    else s.answer outOfBounds

/-- SLOT.SCALE (R126). -/
def execSlotScale (sel : Byte) (s : State) : Result := s.answer <| withSlot s.cfg sel fun d => respond d.scale

/-- SLOT.OFFSET (R127). -/
def execSlotOffset (sel : Byte) (s : State) : Result := s.answer <| withSlot s.cfg sel fun d => respond d.offset

/-- SLOT.MIN (R128): the stored lower bound (R131). -/
def execSlotMin (sel : Byte) (s : State) : Result := s.answer <| withSlot s.cfg sel fun d => respond d.min

/-- SLOT.MAX (R129): the stored upper bound (R131). -/
def execSlotMax (sel : Byte) (s : State) : Result := s.answer <| withSlot s.cfg sel fun d => respond d.max

/-- SLOT.UNIT (R130): the opaque label. -/
def execSlotUnit (sel : Byte) (s : State) : Result := s.answer <| withSlot s.cfg sel fun d => respond d.unit

end Sys2Proof.Machine
end

