-- ==== Sys2Proof/Machine/Dispatch.lean ====
section
/-! DEFINITION. One arm for each operation: the operation's meaning (spec/30_encoding.md rule R49). -/

namespace Sys2Proof.Machine

/-- The meaning of an operation on a state (R47). -/
def exec (i : Instr) (s : State) : Host.Outcome State Fault Refusal :=
  match i with
  | .idPrio sel raw => Sys2Proof.Machine.execIdPrio sel raw s
  | .idSa sel raw => Sys2Proof.Machine.execIdSa sel raw s
  | .idPf sel raw => Sys2Proof.Machine.execIdPf sel raw s
  | .idPs sel raw => Sys2Proof.Machine.execIdPs sel raw s
  | .idDa sel raw => Sys2Proof.Machine.execIdDa sel raw s
  | .idGe sel raw => Sys2Proof.Machine.execIdGe sel raw s
  | .idDp sel raw => Sys2Proof.Machine.execIdDp sel raw s
  | .idEdp sel raw => Sys2Proof.Machine.execIdEdp sel raw s
  | .nameNew identity manufacturerCode ecuInstance functionInstance function vehicleSystem vehicleSystemInstance industryGroup arbitraryAddressCapable => Sys2Proof.Machine.execNameNew identity manufacturerCode ecuInstance functionInstance function vehicleSystem vehicleSystemInstance industryGroup arbitraryAddressCapable s
  | .nameAsRaw n => Sys2Proof.Machine.execNameAsRaw n s
  | .nameFromRaw bytes => Sys2Proof.Machine.execNameFromRaw bytes s
  | .nameIdent n => Sys2Proof.Machine.execNameIdent n s
  | .nameMfr n => Sys2Proof.Machine.execNameMfr n s
  | .nameEcui n => Sys2Proof.Machine.execNameEcui n s
  | .nameFni n => Sys2Proof.Machine.execNameFni n s
  | .nameFn n => Sys2Proof.Machine.execNameFn n s
  | .nameVs n => Sys2Proof.Machine.execNameVs n s
  | .nameVsi n => Sys2Proof.Machine.execNameVsi n s
  | .nameIg n => Sys2Proof.Machine.execNameIg n s
  | .nameAac n => Sys2Proof.Machine.execNameAac n s
  | .sigValid sel value => Sys2Proof.Machine.execSigValid sel value s
  | .sigSpec sel value => Sys2Proof.Machine.execSigSpec sel value s
  | .sigErr sel value => Sys2Proof.Machine.execSigErr sel value s
  | .sigNa sel value => Sys2Proof.Machine.execSigNa sel value s
  | .sigClass sel value => Sys2Proof.Machine.execSigClass sel value s
  | .parDec code => Sys2Proof.Machine.execParDec code s
  | .parEnc tag => Sys2Proof.Machine.execParEnc tag s
  | .parDflt => Sys2Proof.Machine.execParDflt s
  | .cmdDec code => Sys2Proof.Machine.execCmdDec code s
  | .cmdEnc tag => Sys2Proof.Machine.execCmdEnc tag s
  | .cmdDflt => Sys2Proof.Machine.execCmdDflt s
  | .slotNew sel v => Sys2Proof.Machine.execSlotNew sel v s
  | .slotFromRaw sel raw => Sys2Proof.Machine.execSlotFromRaw sel raw s
  | .slotAsRaw sel v => Sys2Proof.Machine.execSlotAsRaw sel v s
  | .slotScale sel => Sys2Proof.Machine.execSlotScale sel s
  | .slotOffset sel => Sys2Proof.Machine.execSlotOffset sel s
  | .slotMin sel => Sys2Proof.Machine.execSlotMin sel s
  | .slotMax sel => Sys2Proof.Machine.execSlotMax sel s
  | .slotUnit sel => Sys2Proof.Machine.execSlotUnit sel s

end Sys2Proof.Machine
end

