-- ==== Sys2Proof/Machine/Step.lean ====
section
/-! DEFINITION. One step: one evaluation of the request on the request port (spec/00_scope.md rule R9).  A record
that is no configuration of CORE is refused before any request (spec/70_reset_and_hazards.md rule R153). -/

namespace Sys2Proof.Machine

/-- `exec(CFG, REQ) = RSP` (R9, R47). -/
def step (s : State) : Host.Outcome State Fault Refusal :=
  if s.cfg.wf then
    match s.fetch with
    | .operation i => exec i s
    | .reservedOp op => execReservedOp op s
  else .refused .illFormedConfiguration

/-- `s` with a request, numbered as spec/opcode_table.json numbers it, on the request port.  CORE fetches nothing
and the host chooses each request (R15): placing it on the port is all it takes. -/
def State.withFetchWord (s : State) (nbits w : Nat) : State := s.present (tableWord nbits w)

end Sys2Proof.Machine
end

