-- ==== Sys2Proof/Safety.lean ====
section
/-! DEFINITION. The terms claims use: the fields of the response port as a host reads them, what it is for an
operation to complete with a response, the invariant of the machine, and a session of requests
(spec/30_encoding.md rules R46, R51, R52, spec/20_memory.md rule R40). -/

namespace Sys2Proof.Machine

/-- `status = RSP[75:72]` (R46). -/
def rspStatus (w : ResponseWord) : Nat := w.toNat / 2 ^ 72

/-- `info = RSP[71:64]` (R46). -/
def rspInfo (w : ResponseWord) : Nat := w.toNat / 2 ^ 64 % 2 ^ 8

/-- `r = RSP[63:0]` (R46). -/
def rspR (w : ResponseWord) : Nat := w.toNat % 2 ^ 64

/-- `t` is `s` with a response of these three fields on its response port: the configuration and the request port
are as they were. -/
def State.Answered (s t : State) (status info r : Nat) : Prop :=
  t.cfg = s.cfg ∧ t.req = s.req ∧ rspStatus t.rsp = status ∧ rspInfo t.rsp = info ∧ rspR t.rsp = r

/-- The operation goes on to a next state, which is `s` with a response of these three fields. -/
def Completes (i : Instr) (s : State) (status info r : Nat) : Prop :=
  ∃ t, exec i s = .next t ∧ s.Answered t status info r

/-- What a response can be, by status code (R51, R52, R139): an `OK` response has `info = 0`, an absent result has
`r = 0`, `info` is one of the values its status gives it, and the codes 7 to 15 never appear.  `OUT_OF_RANGE(4)`
cannot appear, for the function port is as wide as its field (R80). -/
def legalResponse (w : ResponseWord) : Bool :=
  match rspStatus w with
  | 0 => rspInfo w == 0
  | 1 => rspR w == 0 && rspInfo w == 0
  | 2 => rspR w == 0 && rspInfo w ≤ 8 && rspInfo w != 4
  | 3 => rspR w == 0 && (rspInfo w == 6 || rspInfo w == 7)
  | 4 => rspR w == 0 && (rspInfo w == 2 || 3 < rspInfo w)
  | 5 => rspR w == 0 && rspInfo w == 0
  | 6 => rspR w == 0 && rspInfo w ≤ 2
  | _ => false

/-- The invariant of the machine: a configuration of CORE (R153), and a response CORE can give (R51, R52). -/
def State.Inv (s : State) : Prop := s.cfg.wf = true ∧ legalResponse s.rsp = true

/-- Two outcomes a host cannot tell apart: the same response under the same configuration, or the same refusal
(R12: the response is all that can be observed). -/
def SameAnswer : Result → Result → Prop
  | .next t, .next t' => t.rsp = t'.rsp ∧ t.cfg = t'.cfg
  | .refused a, .refused b => a = b
  | _, _ => False

/-- The responses to a sequence of requests presented one after the other, up to the first that gets none. -/
def session (s : State) : List RequestWord → List ResponseWord
  | [] => []
  | q :: qs =>
    match step (s.present q) with
    | .next t => t.rsp :: session t qs
    | _ => []

end Sys2Proof.Machine
end

