-- ==== Sys2Proof/Certificates/Slice0/Obligations.lean ====
section
/-! DEFINITION. The statements for the provers, from the numbered rules of spec/.  They are written from the rules'
own words (slices as quotients and remainders, tables as the rules print them), not from the model's definitions.
The floating-point ones use the model's reading of a pattern: `F64.toUnits` is a value in units of 2^-1074
(93_implementation_defined.md G1, notes/assumptions/9.md). -/

namespace Sys2Proof.Claim

open Machine

/-- The reserved `op` values, as R53 lists them. -/
def ReservedOp (op : Nat) : Prop :=
  op ≤ 0x0F ∨ (0x18 ≤ op ∧ op ≤ 0x1F) ∨ (0x2C ≤ op ∧ op ≤ 0x2F) ∨ (0x35 ≤ op ∧ op ≤ 0x37) ∨ op = 0x3E ∨ op = 0x3F ∨
    0x48 ≤ op

/-- The number of bits and the row of the range table that a width code selects (R36, R94). -/
def rangeRow (t : RangeTable) (sel : Nat) : Option (Nat × CutPoints) :=
  [(4, t.w4), (8, t.w8), (10, t.w10), (12, t.w12), (16, t.w16), (20, t.w20), (24, t.w24), (28, t.w28), (32, t.w32)][sel]?

/-- The value with a 1 in each of the low `n` bits. -/
def ones (n : Nat) : Nat := 2 ^ n - 1

/-- The bits of a request that R48 and R50 do not mark ignored for this `op`, whatever `sel` holds. -/
def portBits (op : Nat) : RequestWord :=
  BitVec.ofNat 144 <| ones 8 * 2 ^ 136 +
    (if 0x10 ≤ op ∧ op ≤ 0x17 then ones 8 * 2 ^ 128 + ones 29
    else if op = 0x20 then ones 104
    else if 0x21 ≤ op ∧ op ≤ 0x2B then ones 64
    else if 0x30 ≤ op ∧ op ≤ 0x34 then ones 8 * 2 ^ 128 + ones 32
    else if op = 0x38 ∨ op = 0x39 ∨ op = 0x3B ∨ op = 0x3C then ones 8
    else if op = 0x40 ∨ op = 0x42 then ones 8 * 2 ^ 128 + ones 64
    else if op = 0x41 then ones 8 * 2 ^ 128 + ones 32
    else if 0x43 ≤ op ∧ op ≤ 0x47 then ones 8 * 2 ^ 128
    else 0)

/-- The bits of a request that R48, R50, R53 and R54 do not mark ignored for this `op` and `sel`: a Standard
identifier reads only `a[10:0]`, a signal only `a[W-1:0]`, and an illegal `sel` nothing further. -/
def readBits (op sel : Nat) : RequestWord :=
  BitVec.ofNat 144 <|
    if 0x10 ≤ op ∧ op ≤ 0x17 then
      ones 8 * 2 ^ 136 + ones 8 * 2 ^ 128 + (if sel = 0 then ones 11 else if sel = 1 then ones 29 else 0)
    else if 0x30 ≤ op ∧ op ≤ 0x34 then
      ones 8 * 2 ^ 136 + ones 8 * 2 ^ 128 + ones (([4, 8, 10, 12, 16, 20, 24, 28, 32][sel]?).getD 0)
    else (portBits op).toNat

/-- A well-formed slot definition, in R119's own words: (d) speaks of every value in bounds. -/
def WellFormedSlot (d : SlotDef) : Prop :=
  F64.isFinite d.scale ∧ F64.isFinite d.offset ∧ F64.isFinite d.min ∧ F64.isFinite d.max ∧
    F64.toUnits d.scale ≠ 0 ∧ F64.fle d.min d.max ∧
    ∀ v : F64, F64.fle d.min v → F64.fle v d.max →
      F64.flt 0xBFF0000000000000#64 (F64.fdiv (F64.fsub v d.offset) d.scale) ∧
        F64.flt (F64.fdiv (F64.fsub v d.offset) d.scale) 0x41F0000000000000#64

/-- A configuration of CORE, as R153 lists its conditions.  Slot 0's `0.0` is the pattern of +0.0: that is the model's
reading (notes/assumptions/10.md). -/
def ConfigurationOfCore (c : Cfg) : Prop :=
  (∀ k W row, rangeRow c.ranges k = some (W, row) →
    row.vmax.toNat < row.smax.toNat ∧ row.smax.toNat < row.emax.toNat ∧ row.emax.toNat < 2 ^ W - 1) ∧
  c.ranges.w8.vmax = 0xFA ∧ c.ranges.w8.emax = 0xFE ∧
  1 ≤ c.slots.length ∧ c.slots.length ≤ 256 ∧ (∀ d ∈ c.slots, WellFormedSlot d) ∧
  ∃ unit rest, c.slots = ⟨0x3FF0000000000000#64, 0, 0, 0x40EF5FE000000000#64, unit⟩ :: rest

/-- `m` is the magnitude pattern of `num / den` units of 2^-1074 rounded to nearest, ties to the even pattern; from
half a unit in the last place above the largest finite value on, it is the infinity's. -/
def NearestEven (num den m : Nat) : Prop :=
  if (2 ^ 54 - 1) * 2 ^ 2044 * den ≤ num then m = F64.infMag
  else m < F64.infMag ∧ ∀ m' < F64.infMag, m' ≠ m →
    let near := ((F64.unitsOfMag m * den : Nat) - (num : Nat) : Int).natAbs
    let other := ((F64.unitsOfMag m' * den : Nat) - (num : Nat) : Int).natAbs
    near < other ∨ (near = other ∧ m % 2 = 0)

/-- `status` and `info` of every operation's response, as R139 tables them. -/
def statusInfo (cfg : Cfg) : Instr → Nat × Nat
  | .idPrio sel _ => if sel.toNat ≤ 1 then (0, 0) else (6, 1)
  | .idSa sel _ => if sel.toNat ≤ 1 then (0, 0) else (6, 1)
  | .idPf sel _ => if sel = 0 then (1, 0) else if sel = 1 then (0, 0) else (6, 1)
  | .idPs sel _ => if sel = 0 then (1, 0) else if sel = 1 then (0, 0) else (6, 1)
  | .idDa sel raw =>
    if sel = 0 then (1, 0) else if sel = 1 then if raw.toNat / 2 ^ 16 % 256 ≥ 240 then (1, 0) else (0, 0) else (6, 1)
  | .idGe sel raw =>
    if sel = 0 then (1, 0) else if sel = 1 then if raw.toNat / 2 ^ 16 % 256 ≤ 239 then (1, 0) else (0, 0) else (6, 1)
  | .idDp sel _ => if sel = 0 then (1, 0) else if sel = 1 then (0, 0) else (6, 1)
  | .idEdp sel _ => if sel = 0 then (1, 0) else if sel = 1 then (0, 0) else (6, 1)
  | .nameNew f0 f1 f2 f3 f4 f5 f6 f7 f8 =>
    match [(f0.toNat, 0x1FFFFF), (f1.toNat, 0x7FF), (f2.toNat, 7), (f3.toNat, 31), (f4.toNat, 255), (f5.toNat, 127),
        (f6.toNat, 15), (f7.toNat, 7), (f8.toNat, 1)].findIdx? (fun p => p.2 < p.1) with
    | some k => (2, k)
    | none => (0, 0)
  | .nameIg n => if n.toNat / 2 ^ 60 % 8 ≥ 6 then (3, n.toNat / 2 ^ 60 % 8) else (0, 0)
  | .parDec c => if c.toNat > 3 then (4, c.toNat) else (0, 0)
  | .cmdDec c => if c.toNat = 2 ∨ c.toNat > 3 then (4, c.toNat) else (0, 0)
  | .parEnc t => if t.toNat > 3 then (6, 2) else (0, 0)
  | .cmdEnc t => if t.toNat = 2 ∨ t.toNat > 3 then (6, 2) else (0, 0)
  | .sigValid sel _ => if sel.toNat ≤ 8 then (0, 0) else (6, 1)
  | .sigSpec sel _ => if sel.toNat ≤ 8 then (0, 0) else (6, 1)
  | .sigErr sel _ => if sel.toNat ≤ 8 then (0, 0) else (6, 1)
  | .sigNa sel _ => if sel.toNat ≤ 8 then (0, 0) else (6, 1)
  | .sigClass sel _ => if sel.toNat ≤ 8 then (0, 0) else (6, 1)
  | .slotNew sel v => slotStatus sel fun d => F64.fle d.min v && F64.fle v d.max
  | .slotAsRaw sel v => slotStatus sel fun d => F64.fle d.min v && F64.fle v d.max
  | .slotFromRaw sel raw => slotStatus sel fun d =>
      let p := F64.fadd (F64.fmul (F64.ofU32 raw) d.scale) d.offset
      F64.fle d.min p && F64.fle p d.max
  | .slotScale sel => slotStatus sel fun _ => true
  | .slotOffset sel => slotStatus sel fun _ => true
  | .slotMin sel => slotStatus sel fun _ => true
  | .slotMax sel => slotStatus sel fun _ => true
  | .slotUnit sel => slotStatus sel fun _ => true
  | .nameAsRaw _ | .nameFromRaw _ | .nameIdent _ | .nameMfr _ | .nameEcui _ | .nameFni _ | .nameFn _ | .nameVs _
  | .nameVsi _ | .nameAac _ | .parDflt | .cmdDflt => (0, 0)
where
  slotStatus (sel : Byte) (ok : SlotDef → Bool) : Nat × Nat :=
    match cfg.slots[sel.toNat]? with
    | some d => if ok d then (0, 0) else (5, 0)
    | none => (6, 1)

/-- The operations of the units that read nothing of `CFG`: Identifier, Name, Parameter and Command. -/
def readsNoCfg : Instr → Bool
  | .idPrio _ _ | .idSa _ _ | .idPf _ _ | .idPs _ _ | .idDa _ _ | .idGe _ _ | .idDp _ _ | .idEdp _ _ => true
  | .nameNew _ _ _ _ _ _ _ _ _ | .nameAsRaw _ | .nameFromRaw _ | .nameIdent _ | .nameMfr _ | .nameEcui _ | .nameFni _
  | .nameFn _ | .nameVs _ | .nameVsi _ | .nameIg _ | .nameAac _ => true
  | .parDec _ | .parEnc _ | .parDflt | .cmdDec _ | .cmdEnc _ | .cmdDflt => true
  | .sigValid _ _ | .sigSpec _ _ | .sigErr _ _ | .sigNa _ _ | .sigClass _ _ => false
  | .slotNew _ _ | .slotFromRaw _ _ | .slotAsRaw _ _ | .slotScale _ | .slotOffset _ | .slotMin _ | .slotMax _
  | .slotUnit _ => false

end Sys2Proof.Claim

open Sys2Proof Sys2Proof.Machine Sys2Proof.Claim

/-! Encoding -/

/-- Decoding the encoding of an operation gives the operation back, with every operand at every value its port
admits (R45, R49, R50). -/
def Obligations.DecodeInvertsEncode : Prop := ∀ i : Instr, decode (encode i) = .operation i

/-- The encoding of what a request spells is the request with its ignored bits at 0 (R48, R50). -/
def Obligations.EncodeKeepsEveryPortBit : Prop :=
  ∀ (w : RequestWord) (i : Instr), decode w = .operation i → encode i = w &&& portBits (w.toNat / 2 ^ 136)

/-- A request spells an operation exactly when its `op` is not reserved, and then the operation's `op` is
`REQ[143:136]` (R47, R49, R53). -/
def Obligations.ReservedOpDecodesToNothing : Prop :=
  ∀ w : RequestWord,
    (ReservedOp (w.toNat / 2 ^ 136) → decode w = .reservedOp (BitVec.ofNat 8 (w.toNat / 2 ^ 136))) ∧
    (¬ ReservedOp (w.toNat / 2 ^ 136) → ∃ i, decode w = .operation i ∧ i.opcode.toNat = w.toNat / 2 ^ 136)

/-- The nine written-out requests of R57 decode to the operations they stand for. -/
def Obligations.WrittenRequestsDecode : Prop :=
  ∀ p ∈ [(0x10010000000000000000000000001FFFFFFF#144, Instr.idPrio 1 0x1FFFFFFF#29),
    (0x28000000000000000000B208801903A2990E#144, .nameVs 0xB208801903A2990E#64),
    (0x200000000001030204800301001D0002990E#144, .nameNew 170254#32 29#16 1 3 128 4 2 3 1),
    (0x3401000000000000000000000000000000FB#144, .sigClass 1 0xFB#32),
    (0x3B0000000000000000000000000000000002#144, .cmdDec 2),
    (0x3D0000000000000000000000000000000000#144, .cmdDflt),
    (0x400000000000000000004034000000000000#144, .slotNew 0 0x4034000000000000#64),
    (0x410000000000000000000000000000000014#144, .slotFromRaw 0 20#32),
    (0x460000000000000000000000000000000000#144, .slotMax 0)], decode p.1 = .operation p.2

/-! The step -/

/-- A step under a configuration of CORE is the meaning of the operation on the request port. -/
def Obligations.StepRunsDecodedOperation : Prop :=
  ∀ (s : State) (i : Instr), s.cfg.wf = true → decode s.req = .operation i → step s = exec i s

/-- A reserved `op` gets `ILLEGAL_REQUEST(0)`, whatever the other fields hold (R53). -/
def Obligations.ReservedOpAnswersIllegalRequest : Prop :=
  ∀ s : State, s.cfg.wf = true → ReservedOp (s.req.toNat / 2 ^ 136) →
    ∃ t, step s = .next t ∧ s.Answered t 6 0 0

/-- A `sel` outside the legal set gets `ILLEGAL_REQUEST(1)`, whatever the operands hold (R54). -/
def Obligations.ReservedSelAnswersIllegalRequest : Prop :=
  ∀ (s : State) (sel : Byte) (raw : BitVec 29) (value : BitVec 32) (v : F64),
    (1 < sel.toNat → ∀ i ∈ [Instr.idPrio sel raw, .idSa sel raw, .idPf sel raw, .idPs sel raw, .idDa sel raw,
      .idGe sel raw, .idDp sel raw, .idEdp sel raw], Completes i s 6 1 0) ∧
    (8 < sel.toNat → ∀ i ∈ [Instr.sigValid sel value, .sigSpec sel value, .sigErr sel value, .sigNa sel value,
      .sigClass sel value], Completes i s 6 1 0) ∧
    (s.cfg.slots.length ≤ sel.toNat → ∀ i ∈ [Instr.slotNew sel v, .slotFromRaw sel value, .slotAsRaw sel v,
      .slotScale sel, .slotOffset sel, .slotMin sel, .slotMax sel, .slotUnit sel], Completes i s 6 1 0)

/-- Every request gets a response under a configuration of CORE (R9, R47), and any other record is refused (R119,
R153).  That a record with -0.0 in slot 0 is such another record is the model's reading (notes/assumptions/10.md). -/
def Obligations.StepTotalOnConfigurations : Prop :=
  ∀ s : State, (ConfigurationOfCore s.cfg → ∃ t, step s = .next t) ∧
    (¬ ConfigurationOfCore s.cfg → step s = .refused .illFormedConfiguration)

/-- A step writes the response port and nothing else: no operation writes `CFG` (R11), and the request port stays as
the host drives it. -/
def Obligations.StepWritesOnlyTheResponse : Prop :=
  ∀ s t : State, step s = .next t → t.cfg = s.cfg ∧ t.req = s.req

/-- The same for every meaning, whatever the configuration is. -/
def Obligations.ExecWritesOnlyTheResponse : Prop :=
  ∀ (i : Instr) (s t : State), exec i s = .next t → t.cfg = s.cfg ∧ t.req = s.req

/-- The response depends on the request and the configuration and on nothing else: not on an earlier response
(R10, R39). -/
def Obligations.StepIgnoresEarlierResponse : Prop :=
  ∀ s s' : State, s.cfg = s'.cfg → s.req = s'.req → step s = step s'

/-- Presenting the same request again gives the same response and changes nothing (R38). -/
def Obligations.StepIsIdempotent : Prop := ∀ s t : State, step s = .next t → step t = .next t

/-- Bits marked ignored have no effect: two requests that agree on the bits that are read get equal responses
(R55). -/
def Obligations.IgnoredBitsHaveNoEffect : Prop :=
  ∀ (s : State) (w w' : RequestWord),
    (w ^^^ w') &&& readBits (w.toNat / 2 ^ 136) (w.toNat / 2 ^ 128 % 256) = 0 →
    SameAnswer (step (s.present w)) (step (s.present w'))

/-- The responses to a sequence of requests are those of one function of the request, so that permuting the requests
permutes the responses and changes none of them (R40).  A sequence of requests is read as `session`, each request presented
before its step (notes/assumptions/6.md). -/
def Obligations.SessionIsOrderIndependent : Prop :=
  ∀ cfg : Cfg, cfg.wf = true → ∃ f : RequestWord → ResponseWord, ∀ s : State, s.cfg = cfg →
    (∀ q, ∃ t, step (s.present q) = .next t ∧ t.rsp = f q) ∧
    (∀ qs, session s qs = qs.map f) ∧
    ∀ qs qs' : List RequestWord, qs.Perm qs' → (session s qs).Perm (session s qs')

/-- Identifier, Name, Parameter and Command operations read nothing of `CFG`: they answer alike under every record. -/
def Obligations.CodecUnitsReadNoConfiguration : Prop :=
  ∀ (i : Instr) (s : State) (c : Cfg), readsNoCfg i = true → ∃ t t', exec i s = .next t ∧
    exec i (s.withCfg c) = .next t' ∧ t.rsp = t'.rsp

/-- `status` and `info` of every response are those of R139's table: no other cause, no other operation. -/
def Obligations.StatusAndInfoByCause : Prop :=
  (∀ (i : Instr) (s t : State), exec i s = .next t → (rspStatus t.rsp, rspInfo t.rsp) = statusInfo s.cfg i) ∧
  ∀ s t : State, step s = .next t → ReservedOp (s.req.toNat / 2 ^ 136) → (rspStatus t.rsp, rspInfo t.rsp) = (6, 0)

/-- Every step keeps the invariant: a configuration of CORE, and a response CORE can give. -/
def Obligations.StepKeepsInvariant : Prop := ∀ s t : State, s.Inv → step s = .next t → t.Inv

/-- A step leaves a legal response on the port, whatever stood there (R51, R52). -/
def Obligations.EveryResponseIsLegal : Prop := ∀ s t : State, step s = .next t → legalResponse t.rsp = true

/-- The state before the first request meets the invariant.  Its configuration and its request are the model's choice
(notes/assumptions/1.md, notes/assumptions/2.md). -/
def Obligations.ResetMeetsInvariant : Prop := State.reset.Inv

/-! Identifier unit -/

/-- ID.PRIO (R66): `raw[10:8]` of a Standard identifier, `raw[28:26]` of an Extended one. -/
def Obligations.IdPriority : Prop :=
  ∀ (s : State) (raw : BitVec 29),
    Completes (.idPrio 0 raw) s 0 0 (raw.toNat / 2 ^ 8 % 8) ∧ Completes (.idPrio 1 raw) s 0 0 (raw.toNat / 2 ^ 26)

/-- ID.SA (R67): the low 8 bits, both variants. -/
def Obligations.IdSourceAddress : Prop :=
  ∀ (s : State) (raw : BitVec 29),
    Completes (.idSa 0 raw) s 0 0 (raw.toNat % 256) ∧ Completes (.idSa 1 raw) s 0 0 (raw.toNat % 256)

/-- ID.PF and ID.PS (R68, R69): `raw[23:16]` and `raw[15:8]` of an Extended identifier, `ABSENT` for a Standard
one. -/
def Obligations.IdPduBytes : Prop :=
  ∀ (s : State) (raw : BitVec 29),
    Completes (.idPf 0 raw) s 1 0 0 ∧ Completes (.idPf 1 raw) s 0 0 (raw.toNat / 2 ^ 16 % 256) ∧
    Completes (.idPs 0 raw) s 1 0 0 ∧ Completes (.idPs 1 raw) s 0 0 (raw.toNat / 2 ^ 8 % 256)

/-- ID.DA and ID.GE (R70, R71): PDU specific, by PDU format at most 239 or at least 240. -/
def Obligations.IdDestinationAndGroup : Prop :=
  ∀ (s : State) (raw : BitVec 29),
    Completes (.idDa 0 raw) s 1 0 0 ∧ Completes (.idGe 0 raw) s 1 0 0 ∧
    (raw.toNat / 2 ^ 16 % 256 ≤ 239 →
      Completes (.idDa 1 raw) s 0 0 (raw.toNat / 2 ^ 8 % 256) ∧ Completes (.idGe 1 raw) s 1 0 0) ∧
    (240 ≤ raw.toNat / 2 ^ 16 % 256 →
      Completes (.idDa 1 raw) s 1 0 0 ∧ Completes (.idGe 1 raw) s 0 0 (raw.toNat / 2 ^ 8 % 256))

/-- ID.DP and ID.EDP (R72, R73): bits 24 and 25 of an Extended identifier, `ABSENT` for a Standard one. -/
def Obligations.IdPageBits : Prop :=
  ∀ (s : State) (raw : BitVec 29),
    Completes (.idDp 0 raw) s 1 0 0 ∧ Completes (.idDp 1 raw) s 0 0 (raw.toNat / 2 ^ 24 % 2) ∧
    Completes (.idEdp 0 raw) s 1 0 0 ∧ Completes (.idEdp 1 raw) s 0 0 (raw.toNat / 2 ^ 25 % 2)

/-- The laws of the unit (R74): of ID.DA and ID.GE exactly one is `OK`, with the byte of ID.PS; both are `ABSENT` for a
Standard identifier; the fields put together are the identifier; nothing but `OK` and `ABSENT` is answered. -/
def Obligations.IdFieldsTileTheIdentifier : Prop :=
  ∀ (s : State) (raw : BitVec 29),
    (∃ prio edp dp pf ps sa, Completes (.idPrio 1 raw) s 0 0 prio ∧ Completes (.idEdp 1 raw) s 0 0 edp ∧
      Completes (.idDp 1 raw) s 0 0 dp ∧ Completes (.idPf 1 raw) s 0 0 pf ∧ Completes (.idPs 1 raw) s 0 0 ps ∧
      Completes (.idSa 1 raw) s 0 0 sa ∧
      raw.toNat = ((((prio * 2 + edp) * 2 + dp) * 256 + pf) * 256 + ps) * 256 + sa ∧
      prio < 8 ∧ edp < 2 ∧ dp < 2 ∧ pf < 256 ∧ ps < 256 ∧ sa < 256 ∧
      ((Completes (.idDa 1 raw) s 0 0 ps ∧ Completes (.idGe 1 raw) s 1 0 0) ∨
        (Completes (.idDa 1 raw) s 1 0 0 ∧ Completes (.idGe 1 raw) s 0 0 ps))) ∧
    (∃ prio sa, Completes (.idPrio 0 raw) s 0 0 prio ∧ Completes (.idSa 0 raw) s 0 0 sa ∧
      raw.toNat % 2 ^ 11 = prio * 256 + sa ∧ prio < 8 ∧ sa < 256) ∧
    ∀ i ∈ [Instr.idPf 0 raw, .idPs 0 raw, .idDa 0 raw, .idGe 0 raw, .idDp 0 raw, .idEdp 0 raw], Completes i s 1 0 0

/-! Name unit -/

/-- NAME.NEW (R80): the packed Name when all nine values fit, else `OUT_OF_RANGE` with the index of the first that
does not. -/
def Obligations.NameNewPacksOrReportsFirst : Prop :=
  ∀ (s : State) (f0 : BitVec 32) (f1 : BitVec 16) (f2 f3 f4 f5 f6 f7 f8 : Byte),
    match [(f0.toNat, 0x1FFFFF), (f1.toNat, 0x7FF), (f2.toNat, 7), (f3.toNat, 31), (f4.toNat, 255), (f5.toNat, 127),
        (f6.toNat, 15), (f7.toNat, 7), (f8.toNat, 1)].findIdx? (fun p => p.2 < p.1) with
    | some k => Completes (.nameNew f0 f1 f2 f3 f4 f5 f6 f7 f8) s 2 k 0
    | none => Completes (.nameNew f0 f1 f2 f3 f4 f5 f6 f7 f8) s 0 0
        (f0.toNat + f1.toNat * 2 ^ 21 + f2.toNat * 2 ^ 32 + f3.toNat * 2 ^ 35 + f4.toNat * 2 ^ 40 + f5.toNat * 2 ^ 49 +
          f6.toNat * 2 ^ 56 + f7.toNat * 2 ^ 60 + f8.toNat * 2 ^ 63)

/-- NAME.ASRAW and NAME.FROMRAW (R81, R82): wire byte `Bi` of a Name is `N[8i+7 : 8i]`, on lane `i`; every Name is
exported and every eight bytes are imported. -/
def Obligations.NameWireFormIsLittleEndian : Prop :=
  ∀ s : State,
    (∀ n : Word, ∃ r, Completes (.nameAsRaw n) s 0 0 r ∧
      ∀ k < 8, r / 2 ^ (8 * k) % 256 = n.toNat / 2 ^ (8 * k) % 256) ∧
    (∀ b0 b1 b2 b3 b4 b5 b6 b7 : Byte, Completes (.nameFromRaw (b7 ++ b6 ++ b5 ++ b4 ++ b3 ++ b2 ++ b1 ++ b0)) s 0 0
      (b0.toNat + b1.toNat * 2 ^ 8 + b2.toNat * 2 ^ 16 + b3.toNat * 2 ^ 24 + b4.toNat * 2 ^ 32 + b5.toNat * 2 ^ 40 +
        b6.toNat * 2 ^ 48 + b7.toNat * 2 ^ 56)) ∧
    (∀ n : Word, ∃ bytes, Completes (.nameAsRaw n) s 0 0 bytes ∧
      Completes (.nameFromRaw (BitVec.ofNat 64 bytes)) s 0 0 n.toNat) ∧
    ∀ bytes : Word, ∃ n, Completes (.nameFromRaw bytes) s 0 0 n ∧
      Completes (.nameAsRaw (BitVec.ofNat 64 n)) s 0 0 bytes.toNat

/-- The eight plain accessors (R83 to R89, R91). -/
def Obligations.NameAccessorsReadTheirField : Prop :=
  ∀ (s : State) (n : Word),
    Completes (.nameIdent n) s 0 0 (n.toNat % 2 ^ 21) ∧
    Completes (.nameMfr n) s 0 0 (n.toNat / 2 ^ 21 % 2 ^ 11) ∧
    Completes (.nameEcui n) s 0 0 (n.toNat / 2 ^ 32 % 2 ^ 3) ∧
    Completes (.nameFni n) s 0 0 (n.toNat / 2 ^ 35 % 2 ^ 5) ∧
    Completes (.nameFn n) s 0 0 (n.toNat / 2 ^ 40 % 2 ^ 8) ∧
    Completes (.nameVs n) s 0 0 (n.toNat / 2 ^ 49 % 2 ^ 7) ∧
    Completes (.nameVsi n) s 0 0 (n.toNat / 2 ^ 56 % 2 ^ 4) ∧
    Completes (.nameAac n) s 0 0 (n.toNat / 2 ^ 63)

/-- NAME.IG (R90): the tag 0 to 5, or `UNRECOGNIZED_VARIANT` with the code 6 or 7. -/
def Obligations.NameIndustryGroup : Prop :=
  ∀ (s : State) (n : Word),
    (n.toNat / 2 ^ 60 % 8 < 6 → Completes (.nameIg n) s 0 0 (n.toNat / 2 ^ 60 % 8)) ∧
    (6 ≤ n.toNat / 2 ^ 60 % 8 → Completes (.nameIg n) s 3 (n.toNat / 2 ^ 60 % 8) 0)

/-- Round trip of construction (R92): the accessors on a constructed Name return the nine arguments, with NAME.IG's
exception for 6 and 7; and a Name whose bit 48 is 0 is constructed again from its fields. -/
def Obligations.NameRoundTrip : Prop :=
  ∀ s : State,
    (∀ (f0 : BitVec 32) (f1 : BitVec 16) (f2 f3 f4 f5 f6 f7 f8 : Byte) (n : Nat),
      Completes (.nameNew f0 f1 f2 f3 f4 f5 f6 f7 f8) s 0 0 n →
      Completes (.nameIdent (BitVec.ofNat 64 n)) s 0 0 f0.toNat ∧ Completes (.nameMfr (BitVec.ofNat 64 n)) s 0 0 f1.toNat ∧
      Completes (.nameEcui (BitVec.ofNat 64 n)) s 0 0 f2.toNat ∧ Completes (.nameFni (BitVec.ofNat 64 n)) s 0 0 f3.toNat ∧
      Completes (.nameFn (BitVec.ofNat 64 n)) s 0 0 f4.toNat ∧ Completes (.nameVs (BitVec.ofNat 64 n)) s 0 0 f5.toNat ∧
      Completes (.nameVsi (BitVec.ofNat 64 n)) s 0 0 f6.toNat ∧ Completes (.nameAac (BitVec.ofNat 64 n)) s 0 0 f8.toNat ∧
      (f7.toNat ≤ 5 → Completes (.nameIg (BitVec.ofNat 64 n)) s 0 0 f7.toNat) ∧
      (6 ≤ f7.toNat → Completes (.nameIg (BitVec.ofNat 64 n)) s 3 f7.toNat 0)) ∧
    (∀ n : Word, n.toNat / 2 ^ 48 % 2 = 0 → ∃ f0 f1 f2 f3 f4 f5 f6 f8,
      Completes (.nameIdent n) s 0 0 f0 ∧ Completes (.nameMfr n) s 0 0 f1 ∧ Completes (.nameEcui n) s 0 0 f2 ∧
      Completes (.nameFni n) s 0 0 f3 ∧ Completes (.nameFn n) s 0 0 f4 ∧ Completes (.nameVs n) s 0 0 f5 ∧
      Completes (.nameVsi n) s 0 0 f6 ∧ Completes (.nameAac n) s 0 0 f8 ∧
      Completes (.nameNew (BitVec.ofNat 32 f0) (BitVec.ofNat 16 f1) (BitVec.ofNat 8 f2) (BitVec.ofNat 8 f3)
        (BitVec.ofNat 8 f4) (BitVec.ofNat 8 f5) (BitVec.ofNat 8 f6) (BitVec.ofNat 8 (n.toNat / 2 ^ 60 % 8))
        (BitVec.ofNat 8 f8)) s 0 0 n.toNat)

/-- The reserved bit 48 (R78): NAME.NEW writes it as 0, no accessor reads it, and import and export keep it. -/
def Obligations.NameReservedBit : Prop :=
  ∀ s : State,
    (∀ (f0 : BitVec 32) (f1 : BitVec 16) (f2 f3 f4 f5 f6 f7 f8 : Byte) (n : Nat),
      Completes (.nameNew f0 f1 f2 f3 f4 f5 f6 f7 f8) s 0 0 n → n / 2 ^ 48 % 2 = 0) ∧
    (∀ n : Word, Completes (.nameAsRaw n) s 0 0 n.toNat ∧ Completes (.nameFromRaw n) s 0 0 n.toNat ∧
      ∀ op ∈ [Instr.nameIdent, .nameMfr, .nameEcui, .nameFni, .nameFn, .nameVs, .nameVsi, .nameIg, .nameAac],
        exec (op n) s = exec (op (n ^^^ 0x0001000000000000#64)) s)

/-! Signal unit -/

/-- The four predicates (R99 to R102): each compares the low `W` bits of the operand with the cut points of the selected
width. -/
def Obligations.SignalPredicates : Prop :=
  ∀ (s : State) (sel : Byte) (value : BitVec 32) (W : Nat) (c : CutPoints),
    rangeRow s.cfg.ranges sel.toNat = some (W, c) →
    let v := value.toNat % 2 ^ W
    Completes (.sigValid sel value) s 0 0 (if v ≤ c.vmax.toNat then 1 else 0) ∧
    Completes (.sigSpec sel value) s 0 0 (if c.vmax.toNat < v ∧ v ≤ c.smax.toNat then 1 else 0) ∧
    Completes (.sigErr sel value) s 0 0 (if c.smax.toNat < v ∧ v ≤ c.emax.toNat then 1 else 0) ∧
    Completes (.sigNa sel value) s 0 0 (if c.emax.toNat < v then 1 else 0)

/-- SIG.CLASS (R103): the four predicates at once, one bit each. -/
def Obligations.SignalClassPacksPredicates : Prop :=
  ∀ (s : State) (sel : Byte) (value : BitVec 32) (W : Nat) (c : CutPoints),
    rangeRow s.cfg.ranges sel.toNat = some (W, c) →
    let v := value.toNat % 2 ^ W
    Completes (.sigClass sel value) s 0 0
      ((if v ≤ c.vmax.toNat then 1 else 0) + (if c.vmax.toNat < v ∧ v ≤ c.smax.toNat then 2 else 0) +
        (if c.smax.toNat < v ∧ v ≤ c.emax.toNat then 4 else 0) + (if c.emax.toNat < v then 8 else 0))

/-- Exclusivity (R98): under a configuration of CORE exactly one of the four predicates is true of any value at any
supported width, and SIG.CLASS has exactly that bit set. -/
def Obligations.SignalClassesAreExclusive : Prop :=
  ∀ (s : State) (sel : Byte) (value : BitVec 32), s.cfg.wf = true → sel.toNat ≤ 8 →
    ∃ a b c d, Completes (.sigValid sel value) s 0 0 a ∧ Completes (.sigSpec sel value) s 0 0 b ∧
      Completes (.sigErr sel value) s 0 0 c ∧ Completes (.sigNa sel value) s 0 0 d ∧ a + b + c + d = 1 ∧
      Completes (.sigClass sel value) s 0 0 (a + 2 * b + 4 * c + 8 * d)

/-- What the source fixes of the table (R97): the 8-bit points, and the cut points they give. -/
def Obligations.EightBitPoints : Prop :=
  ∀ s : State, s.cfg.wf = true →
    s.cfg.ranges.w8.vmax.toNat = 0xFA ∧ s.cfg.ranges.w8.emax.toNat = 0xFE ∧
    0xFB ≤ s.cfg.ranges.w8.smax.toNat ∧ s.cfg.ranges.w8.smax.toNat ≤ 0xFD ∧
    Completes (.sigClass 1 0x00) s 0 0 1 ∧ Completes (.sigClass 1 0xFA) s 0 0 1 ∧ Completes (.sigClass 1 0xFB) s 0 0 2 ∧
    Completes (.sigClass 1 0xFE) s 0 0 4 ∧ Completes (.sigClass 1 0xFF) s 0 0 8

/-- PAR.DEC and PAR.ENC (R107, R108). -/
def Obligations.ParameterCodes : Prop :=
  ∀ (s : State) (c : Byte),
    (c.toNat ≤ 3 → Completes (.parDec c) s 0 0 c.toNat ∧ Completes (.parEnc c) s 0 0 c.toNat) ∧
    (3 < c.toNat → Completes (.parDec c) s 4 c.toNat 0 ∧ Completes (.parEnc c) s 6 2 0)

/-- CMD.DEC and CMD.ENC (R110, R111): 2 is reserved and rejected. -/
def Obligations.CommandCodes : Prop :=
  ∀ (s : State) (c : Byte),
    (c.toNat = 0 ∨ c.toNat = 1 ∨ c.toNat = 3 →
      Completes (.cmdDec c) s 0 0 c.toNat ∧ Completes (.cmdEnc c) s 0 0 c.toNat) ∧
    (c.toNat = 2 ∨ 3 < c.toNat → Completes (.cmdDec c) s 4 c.toNat 0 ∧ Completes (.cmdEnc c) s 6 2 0)

/-- PAR.DFLT and CMD.DFLT (R109, R112): the variant of the all-ones code. -/
def Obligations.DefaultsAreAllOnes : Prop :=
  ∀ s : State, Completes .parDflt s 0 0 3 ∧ Completes .cmdDflt s 0 0 3

/-! Slot unit -/

/-- SLOT.NEW (R123): the operand's own bits when in bounds. -/
def Obligations.SlotNewChecksBounds : Prop :=
  ∀ (s : State) (sel : Byte) (v : F64) (d : SlotDef), s.cfg.slots[sel.toNat]? = some d →
    ((F64.fle d.min v ∧ F64.fle v d.max) → Completes (.slotNew sel v) s 0 0 v.toNat) ∧
    (¬ (F64.fle d.min v ∧ F64.fle v d.max) → Completes (.slotNew sel v) s 5 0 0)

/-- SLOT.FROMRAW (R124): `raw * scale + offset` when in bounds. -/
def Obligations.SlotFromRawScales : Prop :=
  ∀ (s : State) (sel : Byte) (raw : BitVec 32) (d : SlotDef), s.cfg.slots[sel.toNat]? = some d →
    let p := F64.fadd (F64.fmul (F64.ofU32 raw) d.scale) d.offset
    ((F64.fle d.min p ∧ F64.fle p d.max) → Completes (.slotFromRaw sel raw) s 0 0 p.toNat) ∧
    (¬ (F64.fle d.min p ∧ F64.fle p d.max) → Completes (.slotFromRaw sel raw) s 5 0 0)

/-- SLOT.ASRAW (R125): for every value in bounds the quotient `(v - offset) / scale`, rounded toward zero, is a `u32`
and is the answer; a value out of bounds is refused.  The reading of the quotient's value is IEEE 754's, which the spec
takes from general knowledge and so does the model (G1, notes/assumptions/9.md). -/
def Obligations.SlotAsRawTruncates : Prop :=
  ∀ (s : State) (sel : Byte) (v : F64) (d : SlotDef), s.cfg.wf = true → s.cfg.slots[sel.toNat]? = some d →
    let q := F64.fdiv (F64.fsub v d.offset) d.scale
    ((F64.fle d.min v ∧ F64.fle v d.max) → ∃ n < 2 ^ 32, Completes (.slotAsRaw sel v) s 0 0 n ∧ F64.isFinite q ∧
      (0 ≤ F64.toUnits q → (n : Int) * 2 ^ 1074 ≤ F64.toUnits q ∧ F64.toUnits q < ((n : Int) + 1) * 2 ^ 1074) ∧
      (F64.toUnits q < 0 → n = 0)) ∧
    (¬ (F64.fle d.min v ∧ F64.fle v d.max) → Completes (.slotAsRaw sel v) s 5 0 0)

/-- The five constants of a slot (R126 to R130). -/
def Obligations.SlotConstants : Prop :=
  ∀ (s : State) (sel : Byte) (d : SlotDef), s.cfg.slots[sel.toNat]? = some d →
    Completes (.slotScale sel) s 0 0 d.scale.toNat ∧ Completes (.slotOffset sel) s 0 0 d.offset.toNat ∧
    Completes (.slotMin sel) s 0 0 d.min.toNat ∧ Completes (.slotMax sel) s 0 0 d.max.toNat ∧
    Completes (.slotUnit sel) s 0 0 d.unit.toNat

/-- Slot 0 is the source's slot under every configuration of CORE (R118): scale 1.0, offset 0.0, bounds
[0.0, 64255.0].  That offset and min answer the pattern of +0.0 is the model's reading (notes/assumptions/10.md). -/
def Obligations.SlotZeroConstants : Prop :=
  ∀ s : State, s.cfg.wf = true →
    Completes (.slotScale 0) s 0 0 0x3FF0000000000000 ∧ Completes (.slotOffset 0) s 0 0 0 ∧
    Completes (.slotMin 0) s 0 0 0 ∧ Completes (.slotMax 0) s 0 0 0x40EF5FE000000000

/-- The bounds test (R122): a NaN and an infinity are never in bounds, and `-0.0` is in bounds exactly when `+0.0`
is. -/
def Obligations.BoundsRefuseNaNAndInfinity : Prop :=
  ∀ (s : State) (sel : Byte) (d : SlotDef), s.cfg.wf = true → s.cfg.slots[sel.toNat]? = some d →
    (∀ v : F64, F64.infMag ≤ F64.mag v → Completes (.slotNew sel v) s 5 0 0 ∧ Completes (.slotAsRaw sel v) s 5 0 0) ∧
    (Completes (.slotNew sel 0x8000000000000000#64) s 0 0 0x8000000000000000 ↔ Completes (.slotNew sel 0) s 0 0 0)

/-- A value SLOT.NEW or SLOT.FROMRAW answered `OK` with passes SLOT.ASRAW's bounds test (R125, corner case 1). -/
def Obligations.SlotInstancesEncode : Prop :=
  ∀ (s : State) (sel : Byte), s.cfg.wf = true →
    (∀ (v : F64) (x : Nat), Completes (.slotNew sel v) s 0 0 x → ∃ n, Completes (.slotAsRaw sel (BitVec.ofNat 64 x)) s 0 0 n) ∧
    ∀ (raw : BitVec 32) (x : Nat), Completes (.slotFromRaw sel raw) s 0 0 x →
      ∃ n, Completes (.slotAsRaw sel (BitVec.ofNat 64 x)) s 0 0 n

/-- What SLOT.FROMRAW computes is never a NaN for a well-formed slot, and for raw 0 it is the offset when that is not
zero, and a zero when it is (R124, corner cases 3 and 4; G1, notes/assumptions/9.md). -/
def Obligations.SlotFromRawCorners : Prop :=
  ∀ d : SlotDef, WellFormedSlot d →
    (∀ raw : BitVec 32, ¬ F64.isNaN (F64.fadd (F64.fmul (F64.ofU32 raw) d.scale) d.offset)) ∧
    (F64.toUnits d.offset ≠ 0 → F64.fadd (F64.fmul (F64.ofU32 0) d.scale) d.offset = d.offset) ∧
    (F64.toUnits d.offset = 0 → F64.mag (F64.fadd (F64.fmul (F64.ofU32 0) d.scale) d.offset) = 0)

/-- The round trip of slot 0 (R132): an in-bounds `v` encodes to `trunc(v)`, which decodes to itself, within one scaling
unit of `v`.  The values are IEEE 754's reading of the patterns (G1, notes/assumptions/9.md). -/
def Obligations.SlotZeroRoundTrip : Prop :=
  ∀ (s : State) (v : F64), s.cfg.wf = true → F64.fle 0 v → F64.fle v 0x40EF5FE000000000#64 →
    ∃ n : Nat, n ≤ 64255 ∧ Completes (.slotAsRaw 0 v) s 0 0 n ∧
      (n : Int) * 2 ^ 1074 ≤ F64.toUnits v ∧ F64.toUnits v < ((n : Int) + 1) * 2 ^ 1074 ∧
      ∃ p : F64, Completes (.slotFromRaw 0 (BitVec.ofNat 32 n)) s 0 0 p.toNat ∧ F64.isFinite p ∧
        F64.toUnits p = (n : Int) * 2 ^ 1074

/-- A new slot is a new table entry and changes no answer about the entries before it (R133). -/
def Obligations.NewSlotsChangeNoAnswer : Prop :=
  ∀ (s : State) (more : List SlotDef) (sel : Byte) (raw : BitVec 32) (v : F64), sel.toNat < s.cfg.slots.length →
    ∀ i ∈ [Instr.slotNew sel v, .slotFromRaw sel raw, .slotAsRaw sel v, .slotScale sel, .slotOffset sel, .slotMin sel,
      .slotMax sel, .slotUnit sel],
    match exec i s, exec i (s.withCfg { s.cfg with slots := s.cfg.slots ++ more }) with
    | .next t, .next t' => t.rsp = t'.rsp
    | .refused a, .refused b => a = b
    | _, _ => False

/-! Numerics -/

/-- Addition, subtraction, multiplication and division of finite values round the exact result once, to nearest, ties to
even, with the sign of the exact result; the sign of a zero sum is IEEE 754's (R120, G1, notes/assumptions/9.md). -/
def Obligations.ArithmeticRoundsOnce : Prop :=
  ∀ x y : F64, F64.isFinite x → F64.isFinite y →
    (NearestEven (F64.toUnits x + F64.toUnits y).natAbs 1 (F64.mag (F64.fadd x y)) ∧
      ((F64.fadd x y).msb = if F64.toUnits x + F64.toUnits y = 0 then x.msb && y.msb
        else decide (F64.toUnits x + F64.toUnits y < 0))) ∧
    (NearestEven (F64.toUnits x - F64.toUnits y).natAbs 1 (F64.mag (F64.fsub x y)) ∧
      ((F64.fsub x y).msb = if F64.toUnits x - F64.toUnits y = 0 then x.msb && !y.msb
        else decide (F64.toUnits x - F64.toUnits y < 0))) ∧
    (NearestEven (F64.units x * F64.units y) (2 ^ 1074) (F64.mag (F64.fmul x y)) ∧
      (F64.fmul x y).msb = (x.msb ^^ y.msb)) ∧
    (F64.toUnits y ≠ 0 → NearestEven (F64.units x * 2 ^ 1074) (F64.units y) (F64.mag (F64.fdiv x y)) ∧
      (F64.fdiv x y).msb = (x.msb ^^ y.msb))

/-- Less-or-equal is the order of the values, false for a NaN; `-0.0` and `+0.0` are equal (R120, G1).  The pattern of an
infinity reads as more units than any finite value (notes/assumptions/9.md). -/
def Obligations.ComparisonIsValueOrder : Prop :=
  ∀ x y : F64, F64.fle x y = true ↔
    (F64.mag x ≤ F64.infMag ∧ F64.mag y ≤ F64.infMag ∧ F64.toUnits x ≤ F64.toUnits y)

/-- The conversion of a `u32` is exact (R121, G1, notes/assumptions/9.md). -/
def Obligations.ConversionOfU32IsExact : Prop :=
  ∀ n : BitVec 32, F64.isFinite (F64.ofU32 n) = true ∧ F64.toUnits (F64.ofU32 n) = (n.toNat : Int) * 2 ^ 1074

/-- `trunc` of a finite value rounds toward zero to an integral value of the same sign
(spec/00_scope.md section 6, G1, notes/assumptions/9.md). -/
def Obligations.TruncRoundsTowardZero : Prop :=
  ∀ x : F64, F64.isFinite x = true →
    F64.isFinite (F64.trunc x) = true ∧ (F64.trunc x).msb = x.msb ∧
      F64.units (F64.trunc x) = F64.units x / 2 ^ 1074 * 2 ^ 1074
end

