-- ==== Sys2Proof/Laws/Binary64.lean ====
section
/-! SUPPORT. The lemmas of the binary64 numerics: what `roundDiv` and `roundMag` answer, that rounding is monotone,
and that magnitude patterns are ordered as the values they stand for. -/

namespace Sys2Proof.Machine.F64

/-- `roundDiv num den` is within half of `num / den`, and even when exactly half way. -/
theorem roundDiv_spec (num : Nat) {den : Nat} (hden : 0 < den) :
    2 * (roundDiv num den * den) ≤ 2 * num + den ∧ 2 * num ≤ 2 * (roundDiv num den * den) + den ∧
      (2 * (roundDiv num den * den) = 2 * num + den ∨ 2 * num = 2 * (roundDiv num den * den) + den →
        roundDiv num den % 2 = 0) := by
  have hdiv : num / den * den + num % den = num := by
    rw [Nat.mul_comm]
    exact Nat.div_add_mod num den
  have hmod : num % den < den := Nat.mod_lt _ hden
  unfold roundDiv
  simp only
  split
  · have hmul : (num / den + 1) * den = num / den * den + den := by ring
    rw [hmul]
    omega
  · omega

theorem roundDiv_mono {num den num' den' : Nat} (hden : 0 < den) (hden' : 0 < den')
    (h : num * den' ≤ num' * den) : roundDiv num den ≤ roundDiv num' den' := by
  obtain ⟨hlow, -, heven⟩ := roundDiv_spec num hden
  obtain ⟨-, hhigh', heven'⟩ := roundDiv_spec num' hden'
  generalize roundDiv num den = a at *
  generalize roundDiv num' den' = b at *
  by_contra hlt
  have hb : b + 1 ≤ a := by omega
  have h1 : 2 * (a * den) * den' ≤ (2 * num + den) * den' := Nat.mul_le_mul_right _ hlow
  have h2 : 2 * num' * den ≤ (2 * (b * den') + den') * den := Nat.mul_le_mul_right _ hhigh'
  have h3 : (b + 1) * (den * den') ≤ a * (den * den') := Nat.mul_le_mul_right _ hb
  have hpos : 0 < den * den' := Nat.mul_pos hden hden'
  have e1 : 2 * (a * den) * den' = 2 * (a * (den * den')) := by ring
  have e2 : (2 * num + den) * den' = 2 * (num * den') + den * den' := by ring
  have e3 : 2 * num' * den = 2 * (num' * den) := by ring
  have e4 : (2 * (b * den') + den') * den = 2 * (b * (den * den')) + den * den' := by ring
  have e5 : (b + 1) * (den * den') = b * (den * den') + den * den' := by ring
  have htieA : 2 * (a * den) * den' = (2 * num + den) * den' := by omega
  have htieB : 2 * num' * den = (2 * (b * den') + den') * den := by omega
  have hab : (b + 1) * (den * den') = a * (den * den') := by omega
  have hsucc : b + 1 = a := Nat.eq_of_mul_eq_mul_right hpos hab
  have ha := heven (Or.inl (Nat.eq_of_mul_eq_mul_right hden' htieA))
  have hb' := heven' (Or.inr (Nat.eq_of_mul_eq_mul_right hden htieB))
  omega

theorem roundDiv_le {num den m : Nat} (hden : 0 < den) (h : num ≤ m * den) : roundDiv num den ≤ m := by
  have hm : roundDiv (m * 1) 1 = m := by simp [roundDiv, Nat.mod_one]
  rw [← hm]
  exact roundDiv_mono hden Nat.one_pos (by simpa using h)

theorem le_roundDiv {num den m : Nat} (hden : 0 < den) (h : m * den ≤ num) : m ≤ roundDiv num den := by
  have hm : roundDiv (m * 1) 1 = m := by simp [roundDiv, Nat.mod_one]
  rw [← hm]
  exact roundDiv_mono Nat.one_pos hden (by simpa using h)

/-- An exact quotient is not rounded. -/
theorem roundDiv_mul (m : Nat) {den : Nat} (hden : 0 < den) : roundDiv (m * den) den = m :=
  le_antisymm (roundDiv_le hden le_rfl) (le_roundDiv hden le_rfl)

/-- The significand before rounding has at most 53 bits. -/
theorem num_lt_of_roundShift {num den : Nat} (hden : 0 < den) : num < 2 ^ 53 * (den * 2 ^ roundShift num den) := by
  have hlog : num / den < 2 ^ ((num / den).log2 + 1) := Nat.lt_log2_self
  have hexp : (num / den).log2 + 1 ≤ 53 + roundShift num den := by
    simp only [roundShift, floorLog2_eq]
    omega
  have hle := Nat.pow_le_pow_right (show 0 < 2 by decide) hexp
  have hq : num / den < 2 ^ 53 * 2 ^ roundShift num den := by
    rw [← pow_add]
    omega
  have := (Nat.div_lt_iff_lt_mul hden).1 hq
  calc num < _ := this
    _ = _ := by ring

/-- Above the subnormals the significand before rounding has 53 bits. -/
theorem le_num_of_roundShift {num den : Nat} (hden : 0 < den) (h : roundShift num den ≠ 0) :
    2 ^ 52 * (den * 2 ^ roundShift num den) ≤ num := by
  simp only [roundShift, floorLog2_eq] at h ⊢
  have hne : num / den ≠ 0 := by
    intro h0
    simp [h0] at h
  have hlog := Nat.log2_self_le hne
  have hexp : (num / den).log2 = 52 + ((num / den).log2 - 52) := by omega
  rw [hexp, pow_add] at hlog
  have := (Nat.le_div_iff_mul_le hden).1 hlog
  calc _ = 2 ^ 52 * 2 ^ ((num / den).log2 - 52) * den := by ring
    _ ≤ num := this

theorem roundShift_mono {num den num' den' : Nat} (hden : 0 < den) (hden' : 0 < den')
    (h : num * den' ≤ num' * den) : roundShift num den ≤ roundShift num' den' := by
  have hq : num / den ≤ num' / den' := by
    rw [Nat.le_div_iff_mul_le hden']
    refine Nat.le_of_mul_le_mul_right ?_ hden
    calc num / den * den' * den = num / den * den * den' := by ring
      _ ≤ num * den' := Nat.mul_le_mul_right _ (Nat.div_mul_le_self _ _)
      _ ≤ num' * den := h
  have hlog : (num / den).log2 ≤ (num' / den').log2 := by
    rw [Nat.log2_eq_log_two, Nat.log2_eq_log_two]
    exact Nat.log_mono_right hq
  simp only [roundShift, floorLog2_eq]
  omega

/-- Rounding is monotone in the exact value. -/
theorem roundMag_mono {num den num' den' : Nat} (hden : 0 < den) (hden' : 0 < den')
    (h : num * den' ≤ num' * den) : roundMag num den ≤ roundMag num' den' := by
  have hk := roundShift_mono hden hden' h
  unfold roundMag
  simp only [pow2_eq]
  refine min_le_min_right infMag ?_
  have hpos : 0 < den * 2 ^ roundShift num den := by positivity
  have hpos' : 0 < den' * 2 ^ roundShift num' den' := by positivity
  rcases Nat.eq_or_lt_of_le hk with heq | hlt
  · have : roundDiv num (den * 2 ^ roundShift num den) ≤ roundDiv num' (den' * 2 ^ roundShift num' den') := by
      refine roundDiv_mono hpos hpos' ?_
      rw [heq, ← mul_assoc, ← mul_assoc]
      exact Nat.mul_le_mul_right _ h
    omega
  · have hle := roundDiv_le hpos (num_lt_of_roundShift hden).le
    have hge := le_roundDiv hpos' (le_num_of_roundShift hden' (by omega))
    omega

theorem roundMag_le_infMag (num den : Nat) : roundMag num den ≤ infMag := Nat.min_le_right _ _

@[simp] theorem roundDiv_zero (den : Nat) : roundDiv 0 den = 0 := by simp [roundDiv]

@[simp] theorem roundMag_zero (den : Nat) : roundMag 0 den = 0 := by simp [roundMag, roundShift]

theorem unitsOfMag_of_lt {m : Nat} (h : m < 2 ^ 52) : unitsOfMag m = m := if_pos h

theorem unitsOfMag_of_le {m : Nat} (h : 2 ^ 52 ≤ m) :
    unitsOfMag m = (2 ^ 52 + m % 2 ^ 52) * 2 ^ (m / 2 ^ 52 - 1) := by
  rw [unitsOfMag, if_neg (Nat.not_lt.2 h), pow2_eq]

/-- The gap from one magnitude pattern to the next is one unit in the last place. -/
theorem unitsOfMag_succ (m : Nat) : unitsOfMag (m + 1) = unitsOfMag m + 2 ^ (m / 2 ^ 52 - 1) := by
  rcases Nat.lt_or_ge (m + 1) (2 ^ 52) with h | h
  · rw [unitsOfMag_of_lt h, unitsOfMag_of_lt (by omega), Nat.div_eq_of_lt (by omega)]
    rfl
  · rw [unitsOfMag_of_le h]
    rcases Nat.lt_or_ge m (2 ^ 52) with hm | hm
    · obtain rfl : m = 2 ^ 52 - 1 := by omega
      rw [unitsOfMag_of_lt hm]
      norm_num
    · rw [unitsOfMag_of_le hm]
      rcases Nat.lt_or_ge (m % 2 ^ 52 + 1) (2 ^ 52) with hr | hr
      · have h1 : (m + 1) / 2 ^ 52 = m / 2 ^ 52 := by omega
        have h2 : (m + 1) % 2 ^ 52 = m % 2 ^ 52 + 1 := by omega
        rw [h1, h2]
        ring
      · have h1 : (m + 1) / 2 ^ 52 - 1 = (m / 2 ^ 52 - 1) + 1 := by omega
        have h2 : (m + 1) % 2 ^ 52 = 0 := by omega
        have h3 : m % 2 ^ 52 = 2 ^ 52 - 1 := by omega
        rw [h1, h2, h3, pow_succ]
        ring

/-- Magnitude patterns are ordered as their values. -/
theorem unitsOfMag_strictMono : StrictMono unitsOfMag := by
  refine strictMono_nat_of_lt_succ fun m => ?_
  rw [unitsOfMag_succ]
  have : 0 < 2 ^ (m / 2 ^ 52 - 1) := by positivity
  omega

theorem log2_of_div_eq_one {n k : Nat} (h : n / 2 ^ k = 1) : n.log2 = k := by
  have hlow : 2 ^ k ≤ n := by
    have hmul := Nat.div_mul_le_self n (2 ^ k)
    rwa [h, one_mul] at hmul
  have hhigh : n < 2 ^ (k + 1) := by
    have hmul := Nat.lt_mul_div_succ n (show 0 < 2 ^ k by positivity)
    rwa [h, ← pow_succ] at hmul
  have hn : n ≠ 0 := by
    rintro rfl
    simp at h
  exact le_antisymm (Nat.lt_succ_iff.1 ((Nat.log2_lt hn).2 hhigh)) ((Nat.le_log2 hn).2 hlow)

/-- A representable value is not changed by rounding. -/
theorem roundMag_unitsOfMag {m : Nat} (h : m ≤ infMag) : roundMag (unitsOfMag m) 1 = m := by
  unfold roundMag
  simp only [pow2_eq, one_mul, Nat.min_def]
  rcases Nat.lt_or_ge m (2 ^ 52) with hm | hm
  · have hk : roundShift m 1 = 0 := by
      simp only [roundShift, floorLog2_eq, Nat.div_one]
      rcases Nat.eq_zero_or_pos m with rfl | hpos
      · simp
      · have := (Nat.log2_lt (Nat.pos_iff_ne_zero.1 hpos)).2 hm
        omega
    rw [unitsOfMag_of_lt hm, hk]
    have hround : roundDiv m (2 ^ 0) = m := by simpa using roundDiv_mul m Nat.one_pos
    rw [hround, Nat.zero_mul, Nat.zero_add]
    exact if_pos h
  · rw [unitsOfMag_of_le hm]
    have hr : m % 2 ^ 52 < 2 ^ 52 := Nat.mod_lt _ (by positivity)
    have hlog : ((2 ^ 52 + m % 2 ^ 52) * 2 ^ (m / 2 ^ 52 - 1)).log2 = 52 + (m / 2 ^ 52 - 1) := by
      refine log2_of_div_eq_one ?_
      rw [pow_add, Nat.mul_div_mul_right _ _ (by positivity)]
      omega
    have hk : roundShift ((2 ^ 52 + m % 2 ^ 52) * 2 ^ (m / 2 ^ 52 - 1)) 1 = m / 2 ^ 52 - 1 := by
      simp only [roundShift, floorLog2_eq, Nat.div_one, hlog]
      omega
    rw [hk, roundDiv_mul _ (by positivity)]
    have := Nat.div_add_mod m (2 ^ 52)
    split <;> omega

theorem unitsOfMag_injective : Function.Injective unitsOfMag := unitsOfMag_strictMono.injective

/-! Patterns made of a sign and a magnitude pattern. -/

theorem mag_lt (x : F64) : mag x < 2 ^ 63 := Nat.mod_lt _ (by positivity)

@[simp] theorem mag_ofSignMag (neg : Bool) {m : Nat} (h : m < 2 ^ 63) : mag (ofSignMag neg m) = m := by
  unfold mag ofSignMag
  cases neg <;> simp <;> omega

@[simp] theorem msb_ofSignMag (neg : Bool) {m : Nat} (h : m < 2 ^ 63) : (ofSignMag neg m).msb = neg := by
  unfold ofSignMag
  cases neg <;> simp [BitVec.msb_eq_decide] <;> omega

/-- A pattern is its sign and its magnitude pattern. -/
theorem ofSignMag_msb_mag (x : F64) : ofSignMag x.msb (mag x) = x := by
  apply BitVec.eq_of_toNat_eq
  unfold ofSignMag mag
  have hx : x.toNat < 2 ^ 64 := x.isLt
  rw [BitVec.msb_eq_decide, BitVec.toNat_ofNat]
  by_cases h : 2 ^ 63 ≤ x.toNat
  · rw [if_pos (by simpa using h)]
    omega
  · rw [if_neg (by simpa using h)]
    omega

theorem infMag_lt : infMag < 2 ^ 63 := by decide

end Sys2Proof.Machine.F64
end

