-- ==== Sys2Proof/Laws/Binary64Order.lean ====
section
/-! SUPPORT. The order of binary64 values: patterns are ordered as their values, and the key of a rounded result is a
monotone function of the exact one. -/

namespace Sys2Proof.Machine.F64

/-- One is 2^1074 units of 2^-1074. -/
theorem unitsPerOne_eq : unitsPerOne = 2 ^ 1074 := pow2_eq _

@[simp] theorem unitsOfMag_zero : unitsOfMag 0 = 0 := rfl

/-- Patterns are ordered as their values; the pattern of an infinity stands above every finite value. -/
theorem key_le_key_iff (x y : F64) : key x ≤ key y ↔ toUnits x ≤ toUnits y := by
  have hxy := unitsOfMag_strictMono.le_iff_le (a := mag x) (b := mag y)
  have hyx := unitsOfMag_strictMono.le_iff_le (a := mag y) (b := mag x)
  have hx := unitsOfMag_strictMono.le_iff_le (a := mag x) (b := 0)
  have hy := unitsOfMag_strictMono.le_iff_le (a := mag y) (b := 0)
  rw [unitsOfMag_zero] at hx hy
  unfold key toUnits units
  cases x.msb <;> cases y.msb <;> simp only [if_true, Bool.false_eq_true, if_false] <;> omega

theorem key_lt_key_iff (x y : F64) : key x < key y ↔ toUnits x < toUnits y := by
  have := key_le_key_iff y x
  omega

theorem key_ofSignMag (neg : Bool) {m : Nat} (h : m < 2 ^ 63) :
    key (ofSignMag neg m) = if neg then -(m : Int) else m := by
  rw [key, msb_ofSignMag neg h, mag_ofSignMag neg h]

theorem roundMag_lt (num den : Nat) : roundMag num den < 2 ^ 63 :=
  lt_of_le_of_lt (roundMag_le_infMag num den) infMag_lt

/-- The key of `num / den` units rounded. -/
def roundKey (num : Int) (den : Nat) : Int :=
  if num < 0 then -(roundMag num.natAbs den : Int) else roundMag num.natAbs den

@[simp] theorem roundKey_zero (den : Nat) : roundKey 0 den = 0 := by simp [roundKey]

theorem roundKey_mono {a b : Int} {den : Nat} (hden : 0 < den) (h : a ≤ b) : roundKey a den ≤ roundKey b den := by
  have hup := fun hab : a.natAbs ≤ b.natAbs => roundMag_mono hden hden (Nat.mul_le_mul_right den hab)
  have hdown := fun hab : b.natAbs ≤ a.natAbs => roundMag_mono hden hden (Nat.mul_le_mul_right den hab)
  unfold roundKey
  split <;> split <;> omega

theorem roundKey_le_infMag (num : Int) (den : Nat) : roundKey num den ≤ infMag := by
  have := roundMag_le_infMag num.natAbs den
  unfold roundKey
  split <;> omega

theorem neg_infMag_le_roundKey (num : Int) (den : Nat) : -(infMag : Int) ≤ roundKey num den := by
  have := roundMag_le_infMag num.natAbs den
  unfold roundKey
  split <;> omega

/-- Finite patterns are no NaN and no infinity. -/
theorem not_isNaN_of_isFinite {x : F64} (h : isFinite x = true) : isNaN x = false := by
  simp only [isFinite, isNaN, decide_eq_true_eq, decide_eq_false_iff_not] at *
  omega

theorem not_isInf_of_isFinite {x : F64} (h : isFinite x = true) : isInf x = false := by
  simp only [isFinite, isInf, decide_eq_true_eq, beq_eq_false_iff_ne] at *
  omega

@[simp] theorem fneg_msb (x : F64) : (fneg x).msb = !x.msb := by
  have hsign : (0x8000000000000000#64).msb = true := by decide
  rw [fneg, BitVec.msb_xor, hsign, Bool.xor_true]

@[simp] theorem fneg_mag (x : F64) : mag (fneg x) = mag x := by
  have hx := ofSignMag_msb_mag x
  unfold fneg mag
  rw [BitVec.toNat_xor]
  have h1 : (0x8000000000000000#64).toNat = 2 ^ 63 := rfl
  rw [h1, Nat.xor_mod_two_pow]
  simp

@[simp] theorem fneg_isFinite (x : F64) : isFinite (fneg x) = isFinite x := by simp [isFinite]

@[simp] theorem fneg_toUnits (x : F64) : toUnits (fneg x) = -toUnits x := by
  simp only [toUnits, units, fneg_msb, fneg_mag]
  cases x.msb <;> simp

theorem fadd_of_isFinite {x y : F64} (hx : isFinite x = true) (hy : isFinite y = true) :
    fadd x y = if toUnits x + toUnits y = 0 then ofSignMag (x.msb && y.msb) 0
      else ofSignMag (toUnits x + toUnits y < 0) (roundMag (toUnits x + toUnits y).natAbs 1) := by
  simp [fadd, not_isNaN_of_isFinite hx, not_isNaN_of_isFinite hy, not_isInf_of_isFinite hx, not_isInf_of_isFinite hy]

/-- The sum of finite values is no NaN. -/
theorem fadd_mag_le {x y : F64} (hx : isFinite x = true) (hy : isFinite y = true) : mag (fadd x y) ≤ infMag := by
  rw [fadd_of_isFinite hx hy]
  split
  · rw [mag_ofSignMag _ (by decide)]
    exact Nat.zero_le _
  · rw [mag_ofSignMag _ (roundMag_lt _ _)]
    exact roundMag_le_infMag _ _

theorem key_fadd {x y : F64} (hx : isFinite x = true) (hy : isFinite y = true) :
    key (fadd x y) = roundKey (toUnits x + toUnits y) 1 := by
  rw [fadd_of_isFinite hx hy]
  split
  · rename_i h
    rw [key_ofSignMag _ (by decide), h]
    simp
  · rw [key_ofSignMag _ (roundMag_lt _ _), roundKey]
    simp

theorem key_fsub {x y : F64} (hx : isFinite x = true) (hy : isFinite y = true) :
    key (fsub x y) = roundKey (toUnits x - toUnits y) 1 := by
  rw [fsub, key_fadd hx (by simpa using hy), fneg_toUnits, sub_eq_add_neg]

theorem fsub_mag_le {x y : F64} (hx : isFinite x = true) (hy : isFinite y = true) : mag (fsub x y) ≤ infMag :=
  fadd_mag_le hx (by simpa using hy)

theorem fdiv_of_isFinite {x y : F64} (hx : isFinite x = true) (hy : isFinite y = true) (h0 : units y ≠ 0) :
    fdiv x y = ofSignMag (x.msb != y.msb) (roundMag (units x * unitsPerOne) (units y)) := by
  simp [fdiv, not_isNaN_of_isFinite hx, not_isNaN_of_isFinite hy, not_isInf_of_isFinite hx, not_isInf_of_isFinite hy,
    h0]

theorem fdiv_of_isInf {x y : F64} (hx : isInf x = true) (hy : isFinite y = true) :
    fdiv x y = ofSignMag (x.msb != y.msb) infMag := by
  have hxn : isNaN x = false := by
    simp only [isInf, beq_iff_eq] at hx
    simp [isNaN, hx]
  simp [fdiv, hxn, not_isNaN_of_isFinite hy, hx, not_isInf_of_isFinite hy]

/-- The quotient of a value that is no NaN by a finite value that is not zero is no NaN. -/
theorem fdiv_mag_le {x y : F64} (hx : mag x ≤ infMag) (hy : isFinite y = true) (h0 : units y ≠ 0) :
    mag (fdiv x y) ≤ infMag := by
  rcases Nat.eq_or_lt_of_le hx with h | h
  · rw [fdiv_of_isInf (by simpa [isInf] using h) hy, mag_ofSignMag _ infMag_lt]
  · rw [fdiv_of_isFinite (by simpa [isFinite] using h) hy h0, mag_ofSignMag _ (roundMag_lt _ _)]
    exact roundMag_le_infMag _ _

/-- The key of a quotient, for a dividend that is no NaN: dividing by a negative value turns the order around. -/
theorem key_fdiv_mono {x x' y : F64} (hx : mag x ≤ infMag) (hx' : mag x' ≤ infMag) (hy : isFinite y = true)
    (h0 : units y ≠ 0) (h : key x ≤ key x') :
    if y.msb then key (fdiv x' y) ≤ key (fdiv x y) else key (fdiv x y) ≤ key (fdiv x' y) := by
  have form : ∀ z : F64, mag z ≤ infMag → ∃ m : Nat, m ≤ infMag ∧
      key (fdiv z y) = (if (z.msb != y.msb) then -(m : Int) else m) ∧
      (mag z = infMag → m = infMag) ∧ (mag z < infMag → m = roundMag (units z * unitsPerOne) (units y)) := by
    intro z hz
    rcases Nat.eq_or_lt_of_le hz with hi | hf
    · refine ⟨infMag, le_rfl, ?_, fun _ => rfl, fun hlt => absurd hi (by omega)⟩
      rw [fdiv_of_isInf (by simpa [isInf] using hi) hy, key_ofSignMag _ infMag_lt]
    · refine ⟨_, roundMag_le_infMag _ _, ?_, fun he => absurd he (by omega), fun _ => rfl⟩
      rw [fdiv_of_isFinite (by simpa [isFinite] using hf) hy h0, key_ofSignMag _ (roundMag_lt _ _)]
  obtain ⟨m, hm, hk, hinf, hfin⟩ := form x hx
  obtain ⟨m', hm', hk', hinf', hfin'⟩ := form x' hx'
  have mono : ∀ a b : F64, units a ≤ units b →
      roundMag (units a * unitsPerOne) (units y) ≤ roundMag (units b * unitsPerOne) (units y) := fun a b hab =>
    roundMag_mono (by omega) (by omega) (Nat.mul_le_mul_right _ (Nat.mul_le_mul_right _ hab))
  have up : mag x ≤ mag x' → m ≤ m' := fun hle => by
    rcases Nat.eq_or_lt_of_le hx' with hi | hf
    · have := hinf' hi
      omega
    · have h1 := hfin' hf
      have h2 := hfin (by omega)
      have := mono x x' (unitsOfMag_strictMono.monotone hle)
      omega
  have down : mag x' ≤ mag x → m' ≤ m := fun hle => by
    rcases Nat.eq_or_lt_of_le hx with hi | hf
    · have := hinf hi
      omega
    · have h1 := hfin hf
      have h2 := hfin' (by omega)
      have := mono x' x (unitsOfMag_strictMono.monotone hle)
      omega
  have zero : mag x = 0 → m = 0 := fun hz => by
    have h1 := hfin (by rw [hz]; decide)
    rw [h1, units, hz]
    simp
  have zero' : mag x' = 0 → m' = 0 := fun hz => by
    have h1 := hfin' (by rw [hz]; decide)
    rw [h1, units, hz]
    simp
  rw [hk, hk']
  unfold key at h
  cases hs : x.msb <;> cases hs' : x'.msb <;> cases hy' : y.msb <;>
    simp only [hs, hs', if_true, Bool.false_eq_true, if_false, bne_self_eq_false, Bool.true_bne, Bool.false_bne,
      Bool.not_false] at h ⊢ <;> omega

end Sys2Proof.Machine.F64
end

