-- ==== Sys2Proof/Laws/Configuration.lean ====
section
/-! SUPPORT. What a well-formed slot definition gives: every value in bounds is finite and has its encode quotient in
range, since both arithmetic operations of the quotient are monotone (spec/44_slot.md rule R119). -/

namespace Sys2Proof.Machine

open F64

theorem fle_iff {x y : F64} : fle x y = true ↔ mag x ≤ infMag ∧ mag y ≤ infMag ∧ key x ≤ key y := by
  simp only [fle, isNaN, Bool.and_eq_true, Bool.not_eq_true', decide_eq_false_iff_not, decide_eq_true_eq, not_lt]
  tauto

theorem flt_iff {x y : F64} : flt x y = true ↔ mag x ≤ infMag ∧ mag y ≤ infMag ∧ key x < key y := by
  simp only [flt, isNaN, Bool.and_eq_true, Bool.not_eq_true', decide_eq_false_iff_not, decide_eq_true_eq, not_lt]
  tauto

/-- A value between finite values is finite. -/
theorem isFinite_of_between {lo hi v : F64} (hlo : isFinite lo = true) (hhi : isFinite hi = true)
    (h1 : fle lo v = true) (h2 : fle v hi = true) : isFinite v = true := by
  obtain ⟨-, hv, h1⟩ := fle_iff.1 h1
  obtain ⟨-, -, h2⟩ := fle_iff.1 h2
  simp only [isFinite, decide_eq_true_eq] at *
  unfold key at h1 h2
  by_contra hc
  have : mag v = infMag := by omega
  cases lo.msb <;> cases hi.msb <;> cases v.msb <;> simp_all <;> omega

/-- A value in bounds of a well-formed slot is finite. -/
theorem isFinite_of_inBounds {d : SlotDef} {v : F64} (hd : d.wf = true) (hv : inBounds d v = true) :
    isFinite v = true := by
  simp only [SlotDef.wf, Bool.and_eq_true] at hd
  simp only [inBounds, Bool.and_eq_true] at hv
  exact isFinite_of_between hd.1.1.1.1.1.2 hd.1.1.1.1.2 hv.1 hv.2

/-- The encode quotient of every value in bounds of a well-formed slot is in range: the ends decide. -/
theorem encodable_of_inBounds {d : SlotDef} {v : F64} (hd : d.wf = true) (hv : inBounds d v = true) :
    d.encodable v = true := by
  have hf := isFinite_of_inBounds hd hv
  simp only [SlotDef.wf, Bool.and_eq_true, bne_iff_ne, ne_eq] at hd
  simp only [inBounds, Bool.and_eq_true] at hv
  obtain ⟨⟨⟨⟨⟨⟨⟨hs, ho⟩, hmin⟩, hmax⟩, h0⟩, -⟩, e1⟩, e2⟩ := hd
  have hsub : ∀ x y, isFinite x = true → isFinite y = true → key x ≤ key y →
      key (fsub x d.offset) ≤ key (fsub y d.offset) := fun x y hx hy hk => by
    rw [key_fsub hx ho, key_fsub hy ho]
    have := (key_le_key_iff x y).1 hk
    exact roundKey_mono (by decide) (by omega)
  have low := key_fdiv_mono (fsub_mag_le hmin ho) (fsub_mag_le hf ho) hs h0 (hsub _ _ hmin hf (fle_iff.1 hv.1).2.2)
  have high := key_fdiv_mono (fsub_mag_le hf ho) (fsub_mag_le hmax ho) hs h0 (hsub _ _ hf hmax (fle_iff.1 hv.2).2.2)
  have hmag := fdiv_mag_le (fsub_mag_le hf ho) hs h0
  simp only [SlotDef.encodable, SlotDef.quotient, Bool.and_eq_true, flt_iff] at e1 e2 ⊢
  cases hneg : d.scale.msb <;> simp only [hneg, if_true, Bool.false_eq_true, if_false] at low high <;>
    exact ⟨⟨by decide, hmag, by omega⟩, hmag, by decide, by omega⟩

end Sys2Proof.Machine
end

