-- ==== Sys2Proof/Laws/Decode.lean ====
section
/-! SUPPORT. The request port and its four fields are the same bits. -/

namespace Sys2Proof

@[simp] theorem Request.ofWord_toWord (q : Request) : Request.ofWord q.toWord = q := by
  cases q
  simp only [Request.ofWord, Request.toWord, Request.mk.injEq]
  refine ⟨?_, ?_, ?_, ?_⟩ <;> ext k hk <;> simp <;> grind

@[simp] theorem Request.toWord_ofWord (w : RequestWord) : (Request.ofWord w).toWord = w := by
  simp only [Request.ofWord, Request.toWord]
  ext k hk
  simp only [BitVec.getElem_append, BitVec.getElem_extractLsb']
  grind

/-- Decoding an encoding reads the operation's own request. -/
@[simp] theorem decode_encode_request (i : Instr) : decode (encode i) = i.request.decode := by
  rw [decode, encode, Request.ofWord_toWord]

end Sys2Proof
end

