-- ==== Sys2Proof/Laws/State.lean ====
section
/-! SUPPORT. One lemma per field per update of the state, and what `answer` can do. -/

namespace Sys2Proof.Machine

@[simp] theorem State.present_cfg (s : State) (q : RequestWord) : (s.present q).cfg = s.cfg := rfl
@[simp] theorem State.present_req (s : State) (q : RequestWord) : (s.present q).req = q := rfl
@[simp] theorem State.present_rsp (s : State) (q : RequestWord) : (s.present q).rsp = s.rsp := rfl
@[simp] theorem State.withCfg_cfg (s : State) (c : Cfg) : (s.withCfg c).cfg = c := rfl
@[simp] theorem State.withCfg_req (s : State) (c : Cfg) : (s.withCfg c).req = s.req := rfl
@[simp] theorem State.withCfg_rsp (s : State) (c : Cfg) : (s.withCfg c).rsp = s.rsp := rfl
@[simp] theorem State.withFetchWord_cfg (s : State) (n w : Nat) : (s.withFetchWord n w).cfg = s.cfg := rfl
@[simp] theorem State.withFetchWord_req (s : State) (n w : Nat) : (s.withFetchWord n w).req = tableWord n w := rfl
@[simp] theorem State.withFetchWord_rsp (s : State) (n w : Nat) : (s.withFetchWord n w).rsp = s.rsp := rfl

/-- `answer` always goes on, and writes the response port alone. -/
theorem State.answer_eq_next {s t : State} {p : Response} : s.answer p = .next t ↔ t = { s with rsp := p.word } := by
  simp [State.answer, eq_comm]

theorem State.answer_next (s : State) (p : Response) : s.answer p = .next { s with rsp := p.word } := rfl

/-- `answer` never refuses. -/
theorem State.answer_ne_refused (s : State) (p : Response) (e : Refusal) : s.answer p ≠ .refused e := by
  simp [State.answer]

/-- What `answer` writes does not depend on what stood on the response port. -/
@[simp] theorem State.answer_with_rsp (s : State) (p : Response) (w : ResponseWord) :
    ({ s with rsp := w } : State).answer p = s.answer p := rfl

end Sys2Proof.Machine
end

