-- ==== Sys2Proof/Laws/Response.lean ====
section
/-! SUPPORT. The fields of a response read back from the response port, and completion from an answer. -/

namespace Sys2Proof.Machine

theorem Response.word_toNat (p : Response) :
    p.word.toNat = p.status.code.toNat * 2 ^ 72 + p.info.toNat * 2 ^ 64 + p.r.toNat := by
  have hr := p.r.isLt
  have hi := p.info.isLt
  rw [Response.word, BitVec.toNat_append, BitVec.toNat_append, ← Nat.shiftLeft_add_eq_or_of_lt hi,
    ← Nat.shiftLeft_add_eq_or_of_lt hr, Nat.shiftLeft_eq, Nat.shiftLeft_eq]
  ring

@[simp] theorem rspStatus_word (p : Response) : rspStatus p.word = p.status.code.toNat := by
  have hr := p.r.isLt
  have hi := p.info.isLt
  rw [rspStatus, Response.word_toNat]
  omega

@[simp] theorem rspInfo_word (p : Response) : rspInfo p.word = p.info.toNat := by
  have hr := p.r.isLt
  have hi := p.info.isLt
  rw [rspInfo, Response.word_toNat]
  omega

@[simp] theorem rspR_word (p : Response) : rspR p.word = p.r.toNat := by
  have hr := p.r.isLt
  have hi := p.info.isLt
  rw [rspR, Response.word_toNat]
  omega

/-- An operation that answers completes with that answer's fields. -/
theorem completes_of_answer {i : Instr} {s : State} {p : Response} (h : exec i s = s.answer p) :
    Completes i s p.status.code.toNat p.info.toNat p.r.toNat :=
  ⟨_, h, rfl, rfl, rspStatus_word p, rspInfo_word p, rspR_word p⟩

/-- An operation that answers completes with these three fields exactly when they are its answer's. -/
theorem completes_iff_of_answer {i : Instr} {s : State} {p : Response} (h : exec i s = s.answer p)
    {status info r : Nat} :
    Completes i s status info r ↔ p.status.code.toNat = status ∧ p.info.toNat = info ∧ p.r.toNat = r := by
  constructor
  · rintro ⟨t, ht, -, -, h1, h2, h3⟩
    rw [h, State.answer_eq_next] at ht
    subst ht
    simp only [rspStatus_word, rspInfo_word, rspR_word] at h1 h2 h3
    exact ⟨h1, h2, h3⟩
  · rintro ⟨rfl, rfl, rfl⟩
    exact completes_of_answer h

@[simp] theorem respond_status {n : Nat} (v : BitVec n) : (respond v).status = .ok := rfl
@[simp] theorem respond_info {n : Nat} (v : BitVec n) : (respond v).info = 0 := rfl
@[simp] theorem respond_r {n : Nat} (v : BitVec n) : (respond v).r = v.setWidth 64 := rfl
@[simp] theorem absentResult_status (e : Status) (c : Byte) : (absentResult e c).status = e := rfl
@[simp] theorem absentResult_info (e : Status) (c : Byte) : (absentResult e c).info = c := rfl
@[simp] theorem absentResult_r (e : Status) (c : Byte) : (absentResult e c).r = 0 := rfl

end Sys2Proof.Machine
end

