-- ==== Sys2Proof/Laws/Operands.lean ====
section
/-! SUPPORT. What the operand forms do, one lemma for each outcome of a `sel` check. -/

namespace Sys2Proof.Machine

@[simp] theorem withIdentifier_standard (raw : BitVec 29) (k : Identifier → Response) :
    withIdentifier 0 raw k = k (.standard (raw.extractLsb' 0 11)) := rfl

@[simp] theorem withIdentifier_extended (raw : BitVec 29) (k : Identifier → Response) :
    withIdentifier 1 raw k = k (.extended raw) := rfl

theorem withIdentifier_illegal {sel : Byte} (h : 1 < sel.toNat) (raw : BitVec 29) (k : Identifier → Response) :
    withIdentifier sel raw k = illegalSel := by
  unfold withIdentifier identifier?
  split
  · rename_i heq
    split at heq <;> simp_all
  · rfl

@[simp] theorem withExtended_standard (raw : BitVec 29) (k : BitVec 29 → Response) :
    withExtended 0 raw k = absent := rfl

@[simp] theorem withExtended_extended (raw : BitVec 29) (k : BitVec 29 → Response) :
    withExtended 1 raw k = k raw := rfl

theorem withExtended_illegal {sel : Byte} (h : 1 < sel.toNat) (raw : BitVec 29) (k : BitVec 29 → Response) :
    withExtended sel raw k = illegalSel := withIdentifier_illegal h raw _

/-- A width code above 8 selects no width. -/
theorem sigWidth?_eq_none {sel : Byte} (h : 8 < sel.toNat) : sigWidth? sel = none := by
  unfold sigWidth?
  split <;> simp_all

theorem withSignal_illegal {sel : Byte} (h : 8 < sel.toNat) (cfg : Cfg) (value : BitVec 32)
    (k : CutPoints → Nat → Response) : withSignal cfg sel value k = illegalSel := by
  rw [withSignal, sigWidth?_eq_none h]

theorem withSignal_of_width {sel : Byte} {w : SigWidth} (h : sigWidth? sel = some w) (cfg : Cfg) (value : BitVec 32)
    (k : CutPoints → Nat → Response) :
    withSignal cfg sel value k = k (cfg.ranges.row w) (value.toNat % 2 ^ w.bits) := by
  rw [withSignal, h]
  rfl

theorem withSlot_illegal {cfg : Cfg} {sel : Byte} (h : cfg.slots.length ≤ sel.toNat) (k : SlotDef → Response) :
    withSlot cfg sel k = illegalSel := by
  rw [withSlot, List.getElem?_eq_none h]

theorem withSlot_of_entry {cfg : Cfg} {sel : Byte} {d : SlotDef} (h : cfg.slots[sel.toNat]? = some d)
    (k : SlotDef → Response) : withSlot cfg sel k = k d := by
  rw [withSlot, h]

end Sys2Proof.Machine
end

