-- ==== Sys2Proof/Laws/Exec.lean ====
section
/-! SUPPORT. What a meaning and a step can do, said once. -/

namespace Sys2Proof.Machine

/-- SLOT.ASRAW answers, or refuses a record under which its quotient is no `u32`. -/
theorem execSlotAsRaw_cases (sel : Byte) (v : F64) (s : State) :
    (∃ p, execSlotAsRaw sel v s = s.answer p) ∨
      (∃ d, s.cfg.slots[sel.toNat]? = some d ∧ inBounds d v = true ∧ rawOf? d v = none ∧
        execSlotAsRaw sel v s = .refused .illFormedConfiguration) := by
  unfold execSlotAsRaw
  cases hd : s.cfg.slots[sel.toNat]? with
  | none => exact .inl ⟨_, rfl⟩
  | some d =>
    simp only
    split
    · cases hr : rawOf? d v with
      | some raw => exact .inl ⟨_, rfl⟩
      | none => exact .inr ⟨d, rfl, by assumption, hr, rfl⟩
    · exact .inl ⟨_, rfl⟩

/-- Every operation answers, but for SLOT.ASRAW under a record that is no configuration of CORE. -/
theorem exec_cases (i : Instr) (s : State) :
    (∃ p, exec i s = s.answer p) ∨
      ∃ sel v d, i = .slotAsRaw sel v ∧ s.cfg.slots[sel.toNat]? = some d ∧ inBounds d v = true ∧ rawOf? d v = none ∧
        exec i s = .refused .illFormedConfiguration := by
  cases i with
  | slotAsRaw sel v =>
    rcases execSlotAsRaw_cases sel v s with h | ⟨d, h1, h2, h3, h4⟩
    · exact .inl h
    · exact .inr ⟨sel, v, d, rfl, h1, h2, h3, h4⟩
  | _ => exact .inl ⟨_, rfl⟩

/-- A meaning that goes on has written a response on the response port, and nothing else. -/
theorem exec_next {i : Instr} {s t : State} (h : exec i s = .next t) :
    ∃ p, exec i s = s.answer p ∧ t = { s with rsp := p.word } := by
  rcases exec_cases i s with ⟨p, hp⟩ | ⟨_, _, _, _, _, _, _, hr⟩
  · exact ⟨p, hp, State.answer_eq_next.1 (hp ▸ h)⟩
  · rw [hr] at h
    cases h

/-- A step answers the reserved `op`, runs the operation, or refuses a record that is no configuration of CORE. -/
theorem step_cases (s : State) :
    (s.cfg.wf = true ∧ ∃ i, decode s.req = .operation i ∧ step s = exec i s) ∨
      (s.cfg.wf = true ∧ ∃ op, decode s.req = .reservedOp op ∧
        step s = s.answer (absentResult .illegalRequest infoReservedOp)) ∨
      (s.cfg.wf = false ∧ step s = .refused .illFormedConfiguration) := by
  unfold step
  cases hw : s.cfg.wf with
  | false => exact .inr (.inr ⟨rfl, by simp⟩)
  | true =>
    simp only [if_true, State.fetch]
    cases hd : decode s.req with
    | operation i => exact .inl ⟨trivial, i, rfl, rfl⟩
    | reservedOp op => exact .inr (.inl ⟨trivial, op, rfl, rfl⟩)

end Sys2Proof.Machine
end

