-- ==== Sys2Proof/Laws/PerInstr.lean ====
section
/-! SUPPORT. The family `Opcode`: the `op` field of an operation's encoding is its `op` value of
spec/30_encoding.md rule R49, one lemma for each constructor. -/

namespace Sys2Proof.Laws.Opcode

/-- `REQ[143:136]` of the encoding is the operation's `op`. -/
def Statement (i : Instr) : Prop := (encode i).extractLsb' 136 8 = i.opcode

/-- The `op` field of a request's word. -/
theorem op_toWord (q : Request) : q.toWord.extractLsb' 136 8 = q.op :=
  congrArg Request.op (Request.ofWord_toWord q)

theorem idPrio (sel : Byte) (raw : BitVec 29) : Statement (.idPrio sel raw) := op_toWord _
theorem idSa (sel : Byte) (raw : BitVec 29) : Statement (.idSa sel raw) := op_toWord _
theorem idPf (sel : Byte) (raw : BitVec 29) : Statement (.idPf sel raw) := op_toWord _
theorem idPs (sel : Byte) (raw : BitVec 29) : Statement (.idPs sel raw) := op_toWord _
theorem idDa (sel : Byte) (raw : BitVec 29) : Statement (.idDa sel raw) := op_toWord _
theorem idGe (sel : Byte) (raw : BitVec 29) : Statement (.idGe sel raw) := op_toWord _
theorem idDp (sel : Byte) (raw : BitVec 29) : Statement (.idDp sel raw) := op_toWord _
theorem idEdp (sel : Byte) (raw : BitVec 29) : Statement (.idEdp sel raw) := op_toWord _
theorem nameNew (identity : BitVec 32) (manufacturerCode : BitVec 16) (ecuInstance : Byte) (functionInstance : Byte) (function : Byte) (vehicleSystem : Byte) (vehicleSystemInstance : Byte) (industryGroup : Byte) (arbitraryAddressCapable : Byte) : Statement (.nameNew identity manufacturerCode ecuInstance functionInstance function vehicleSystem vehicleSystemInstance industryGroup arbitraryAddressCapable) := op_toWord _
theorem nameAsRaw (n : Word) : Statement (.nameAsRaw n) := op_toWord _
theorem nameFromRaw (bytes : Word) : Statement (.nameFromRaw bytes) := op_toWord _
theorem nameIdent (n : Word) : Statement (.nameIdent n) := op_toWord _
theorem nameMfr (n : Word) : Statement (.nameMfr n) := op_toWord _
theorem nameEcui (n : Word) : Statement (.nameEcui n) := op_toWord _
theorem nameFni (n : Word) : Statement (.nameFni n) := op_toWord _
theorem nameFn (n : Word) : Statement (.nameFn n) := op_toWord _
theorem nameVs (n : Word) : Statement (.nameVs n) := op_toWord _
theorem nameVsi (n : Word) : Statement (.nameVsi n) := op_toWord _
theorem nameIg (n : Word) : Statement (.nameIg n) := op_toWord _
theorem nameAac (n : Word) : Statement (.nameAac n) := op_toWord _
theorem sigValid (sel : Byte) (value : BitVec 32) : Statement (.sigValid sel value) := op_toWord _
theorem sigSpec (sel : Byte) (value : BitVec 32) : Statement (.sigSpec sel value) := op_toWord _
theorem sigErr (sel : Byte) (value : BitVec 32) : Statement (.sigErr sel value) := op_toWord _
theorem sigNa (sel : Byte) (value : BitVec 32) : Statement (.sigNa sel value) := op_toWord _
theorem sigClass (sel : Byte) (value : BitVec 32) : Statement (.sigClass sel value) := op_toWord _
theorem parDec (code : Byte) : Statement (.parDec code) := op_toWord _
theorem parEnc (tag : Byte) : Statement (.parEnc tag) := op_toWord _
theorem parDflt : Statement (.parDflt) := op_toWord _
theorem cmdDec (code : Byte) : Statement (.cmdDec code) := op_toWord _
theorem cmdEnc (tag : Byte) : Statement (.cmdEnc tag) := op_toWord _
theorem cmdDflt : Statement (.cmdDflt) := op_toWord _
theorem slotNew (sel : Byte) (v : F64) : Statement (.slotNew sel v) := op_toWord _
theorem slotFromRaw (sel : Byte) (raw : BitVec 32) : Statement (.slotFromRaw sel raw) := op_toWord _
theorem slotAsRaw (sel : Byte) (v : F64) : Statement (.slotAsRaw sel v) := op_toWord _
theorem slotScale (sel : Byte) : Statement (.slotScale sel) := op_toWord _
theorem slotOffset (sel : Byte) : Statement (.slotOffset sel) := op_toWord _
theorem slotMin (sel : Byte) : Statement (.slotMin sel) := op_toWord _
theorem slotMax (sel : Byte) : Statement (.slotMax sel) := op_toWord _
theorem slotUnit (sel : Byte) : Statement (.slotUnit sel) := op_toWord _

end Sys2Proof.Laws.Opcode
end

