-- ==== Sys2Proof/Tests/Slice0.lean ====
section
/-! SUPPORT. The model's own tests.  Requests and expected responses are those of spec/95_test_vectors.md, and written
out from spec/30_encoding.md where a comment says so; the configuration is that file's T1 (section 0).  Each witness
shows that the hypotheses of the obligation it is named after can be met, at the ends of their ranges. -/

-- One theorem at a time: each evaluation in the kernel is short, and many at once want a thread each.
set_option Elab.async false

namespace Sys2Proof.Tests

open Machine Claim

/-! WellFormed: one ill-formed operation for each check. -/

theorem test_wf_refuses_reserved_tag : (Instr.idPrio 2 0).wf = false := by decide
theorem test_wf_refuses_wide_standard : (Instr.idSa 0 0x800#29).wf = false := by decide
theorem test_wf_refuses_reserved_width : (Instr.sigClass 9 0).wf = false := by decide
theorem test_wf_refuses_wide_signal : (Instr.sigValid 0 0x10#32).wf = false := by decide
theorem test_wf_refuses_no_parameter : (Instr.parEnc 4).wf = false := by decide
theorem test_wf_refuses_reserved_command : (Instr.cmdEnc 2).wf = false := by decide
theorem test_wf_refuses_no_command : (Instr.cmdEnc 4).wf = false := by decide
theorem test_wf_accepts :
    [Instr.idPrio 0 0x7FF#29, .idEdp 1 0x1FFFFFFF#29, .sigNa 8 0xFFFFFFFF#32, .sigValid 0 0xF#32, .parEnc 3, .cmdEnc 3,
      .slotNew 255 0].all Instr.wf = true := by decide

/-! Decode: a word for every constructor, written out from R45, R49 and R50 (op, sel, b, a). -/

theorem test_decode_identifier :
    ∀ p ∈ [(0x100000000000000000000000000000000755#144, Instr.idPrio 0 0x755#29),
      (0x110000000000000000000000000000000755#144, .idSa 0 0x755#29),
      (0x12010000000000000000000000000CF00400#144, .idPf 1 0x0CF00400#29),
      (0x130100000000000000000000000007665544#144, .idPs 1 0x07665544#29),
      (0x140100000000000000000000000000EF1234#144, .idDa 1 0x00EF1234#29),
      (0x150100000000000000000000000000F01234#144, .idGe 1 0x00F01234#29),
      (0x160100000000000000000000000001000000#144, .idDp 1 0x01000000#29),
      (0x1781FFFFFFFFFFFFFFFFFFFFFFFFE2000000#144, .idEdp 0x81 0x02000000#29)], decode p.1 = .operation p.2 := by
  decide

theorem test_decode_name :
    ∀ p ∈ [(0x20FFFFFFFF0908070605040302010A0B0C0D#144,
        Instr.nameNew 0x0A0B0C0D#32 0x0201#16 0x03 0x04 0x05 0x06 0x07 0x08 0x09),
      (0x210000000000000000000807060504030201#144, .nameAsRaw 0x0807060504030201#64),
      (0x22000000000000000000B208801903A2990E#144, .nameFromRaw 0xB208801903A2990E#64),
      (0x23000000000000000000B208801903A2990E#144, .nameIdent 0xB208801903A2990E#64),
      (0x24000000000000000000B208801903A2990E#144, .nameMfr 0xB208801903A2990E#64),
      (0x25000000000000000000B208801903A2990E#144, .nameEcui 0xB208801903A2990E#64),
      (0x26000000000000000000B208801903A2990E#144, .nameFni 0xB208801903A2990E#64),
      (0x27000000000000000000B208801903A2990E#144, .nameFn 0xB208801903A2990E#64),
      (0x28000000000000000000B208801903A2990E#144, .nameVs 0xB208801903A2990E#64),
      (0x29000000000000000000B208801903A2990E#144, .nameVsi 0xB208801903A2990E#64),
      (0x2AFF0000000000000000B208801903A2990E#144, .nameIg 0xB208801903A2990E#64),
      (0x2B000000000000000000B208801903A2990E#144, .nameAac 0xB208801903A2990E#64)], decode p.1 = .operation p.2 := by
  decide

theorem test_decode_signal :
    ∀ p ∈ [(0x3001000000000000000000000000000000FA#144, Instr.sigValid 1 0xFA#32),
      (0x3101000000000000000000000000000000FB#144, .sigSpec 1 0xFB#32),
      (0x3201000000000000000000000000000000FE#144, .sigErr 1 0xFE#32),
      (0x3308000000000000000000000000FFFFFFFF#144, .sigNa 8 0xFFFFFFFF#32),
      (0x34000000000000000000FFFFFFFFFFFFFFF0#144, .sigClass 0 0xFFFFFFF0#32),
      (0x380000000000000000000000000000000102#144, .parDec 2),
      (0x390000000000000000000000000000000003#144, .parEnc 3),
      (0x3A0000000000000000000000000000000000#144, .parDflt),
      (0x3B0000000000000000000000000000000063#144, .cmdDec 99),
      (0x3C0000000000000000000000000000000001#144, .cmdEnc 1),
      (0x3D0000000000000000000000000000000000#144, .cmdDflt)], decode p.1 = .operation p.2 := by
  decide

theorem test_decode_slot :
    ∀ p ∈ [(0x40010000000000000000402499999999999A#144, Instr.slotNew 1 0x402499999999999A#64),
      (0x410000000000000000000000000100000014#144, .slotFromRaw 0 20#32),
      (0x420200000000000000003FD3333333333333#144, .slotAsRaw 2 0x3FD3333333333333#64),
      (0x4303000000000000000000000000000000FF#144, .slotScale 3),
      (0x440100000000000000000000000000000000#144, .slotOffset 1),
      (0x450000000000000000000000000000000000#144, .slotMin 0),
      (0x460000000000000000000000000000000000#144, .slotMax 0),
      (0x470200000000000000000000000000000000#144, .slotUnit 2)], decode p.1 = .operation p.2 := by
  decide

theorem test_decode_rejects_reserved_op :
    ∀ op ∈ [0x00#8, 0x0F#8, 0x18#8, 0x1F#8, 0x2C#8, 0x2F#8, 0x35#8, 0x37#8, 0x3E#8, 0x3F#8, 0x48#8, 0xFF#8],
      decode (op ++ 0x0111223344556677889900AABBCCDDEEFF00#136) = .reservedOp op := by
  decide

theorem test_decodeTableWord : decodeTableWord 144 0x460000000000000000000000000000000000 = some (.slotMax 0) := by
  decide

/-- The op values of R49 are pairwise different, so no two rows of the table overlap. -/
theorem test_opcodes_differ :
    ([0x10, 0x11, 0x12, 0x13, 0x14, 0x15, 0x16, 0x17, 0x20, 0x21, 0x22, 0x23, 0x24, 0x25, 0x26, 0x27, 0x28, 0x29, 0x2A,
      0x2B, 0x30, 0x31, 0x32, 0x33, 0x34, 0x38, 0x39, 0x3A, 0x3B, 0x3C, 0x3D, 0x40, 0x41, 0x42, 0x43, 0x44, 0x45, 0x46,
      0x47].filter fun op => decode (BitVec.ofNat 144 (op * 2 ^ 136)) != .reservedOp (BitVec.ofNat 8 op)).length = 39 := by
  decide

/-! One step each: the response to a request under T1. -/

/-- The response port after one step on a request. -/
def response (w : Nat) : Option Nat :=
  match step (State.reset.withFetchWord 144 w) with
  | .next t => some t.rsp.toNat
  | _ => none

/-- Every request of the list gets the response beside it. -/
def answers (l : List (Nat × Nat)) : Bool := l.all fun p => response p.1 == some p.2

/-- Section 2.1: tags, the 239/240 boundary, bits 24 and 25, reserved `sel`. -/
theorem test_identifier_vectors :
    answers [(0x100000000000000000000000000000000755, 0x0000000000000000007),
      (0x10010000000000000000000000001FFFFFFF, 0x0000000000000000007),
      (0x10000000000000000000000000001FFFF755, 0x0000000000000000007),
      (0x110000000000000000000000000000000755, 0x0000000000000000055),
      (0x120000000000000000000000000000000755, 0x1000000000000000000),
      (0x140100000000000000000000000007665544, 0x0000000000000000055),
      (0x150100000000000000000000000007665544, 0x1000000000000000000),
      (0x140100000000000000000000000000EF1234, 0x0000000000000000012),
      (0x140100000000000000000000000000F01234, 0x1000000000000000000),
      (0x150100000000000000000000000000F01234, 0x0000000000000000012),
      (0x160100000000000000000000000001000000, 0x0000000000000000001),
      (0x170100000000000000000000000001000000, 0x0000000000000000000),
      (0x170100000000000000000000000002000000, 0x0000000000000000001),
      (0x118100000000000000000000000000000755, 0x6010000000000000000)] = true := by
  decide +kernel

/-- Section 2.2: NAME.NEW packs the source's example and reports the first field that does not fit. -/
theorem test_name_new_vectors :
    answers [(0x200000000001030204800301001D0002990E, 0x000B208801903A2990E),
      (0x200000000001070F7FFF1F0707FF001FFFFF, 0x000FFFEFFFFFFFFFFFF),
      (0x200000000001030204800301001D00200000, 0x2000000000000000000),
      (0x20000000000103020480030808000002990E, 0x2010000000000000000),
      (0x200000000001030280800301001D0002990E, 0x2050000000000000000),
      (0x200000000002030204800301001D0002990E, 0x2080000000000000000),
      (0x200000000001060204800301001D0002990E, 0x000E208801903A2990E),
      (0x2000FFFFFF01030204800301001D0002990E, 0x000B208801903A2990E)] = true := by
  decide +kernel

/-- Example E1 of the source: the nine fields of B208801903A2990E, the reserved bit and the reserved groups. -/
theorem test_name_field_vectors :
    answers [(0x23000000000000000000B208801903A2990E, 170254), (0x24000000000000000000B208801903A2990E, 29),
      (0x25000000000000000000B208801903A2990E, 1), (0x26000000000000000000B208801903A2990E, 3),
      (0x27000000000000000000B208801903A2990E, 128), (0x28000000000000000000B209801903A2990E, 4),
      (0x29000000000000000000B208801903A2990E, 2), (0x2A000000000000000000B208801903A2990E, 3),
      (0x2B000000000000000000B208801903A2990E, 1), (0x2A0000000000000000005000000000000000, 5),
      (0x2A0000000000000000006000000000000000, 0x3060000000000000000),
      (0x2A000000000000000000FFFFFFFFFFFFFFFF, 0x3070000000000000000),
      (0x220000000000000000000807060504030201, 0x0000807060504030201),
      (0x210000000000000000000807060504030201, 0x0000807060504030201)] = true := by
  decide +kernel

/-- Section 2.3: the cut points, an over-wide operand and a reserved width code. -/
theorem test_signal_vectors :
    answers [(0x3001000000000000000000000000000000FA, 1), (0x3001000000000000000000000000000000FB, 0),
      (0x3101000000000000000000000000000000FB, 1), (0x3101000000000000000000000000000000FC, 0),
      (0x3201000000000000000000000000000000FE, 1), (0x3201000000000000000000000000000000FF, 0),
      (0x3301000000000000000000000000000000FF, 1), (0x3301000000000000000000000000000000FE, 0),
      (0x340100000000000000000000000000000000, 1), (0x3401000000000000000000000000000001FA, 1),
      (0x34000000000000000000FFFFFFFFFFFFFFF0, 1), (0x3408000000000000000000000000FFFFFFFF, 8),
      (0x34070000000000000000000000000FFFFFFC, 4), (0x340900000000000000000000000000000000, 0x6010000000000000000)] =
      true := by
  decide +kernel

/-- Section 2.3, T2: with SMAX[8] = 0xFD the value 0xFD is specific. -/
theorem test_signal_second_configuration :
    (match step ((State.reset.withFetchWord 144 0x3401000000000000000000000000000000FD).withCfg
        { Config.atReset with ranges := { Config.atReset.ranges with w8 := ⟨0xFA#32, 0xFD#32, 0xFE#32⟩ } }) with
      | .next t => t.rsp.toNat
      | _ => 0xF) = 2 := by
  decide +kernel

/-- Section 2.4: the domain tables and the defaults. -/
theorem test_code_vectors :
    answers [(0x380000000000000000000000000000000002, 2), (0x380000000000000000000000000000000063, 0x4630000000000000000),
      (0x380000000000000000000000000000000102, 2), (0x390000000000000000000000000000000002, 2),
      (0x390000000000000000000000000000000004, 0x6020000000000000000), (0x3A0000000000000000000000000000000000, 3),
      (0x3B0000000000000000000000000000000002, 0x4020000000000000000), (0x3B0000000000000000000000000000000003, 3),
      (0x3C0000000000000000000000000000000003, 3), (0x3C0000000000000000000000000000000002, 0x6020000000000000000),
      (0x3D0000000000000000000000000000000000, 3)] = true := by
  decide +kernel

/-- Section 2.5: bounds, `-0.0`, NaN and infinities. -/
theorem test_slot_new_vectors :
    answers [(0x400000000000000000004034000000000000, 0x0004034000000000000),
      (0x40000000000000000000BFF0000000000000, 0x5000000000000000000),
      (0x4000000000000000000040EF5FE000000000, 0x00040EF5FE000000000),
      (0x4000000000000000000040EF5FE000000001, 0x5000000000000000000),
      (0x400000000000000000008000000000000001, 0x5000000000000000000),
      (0x400000000000000000008000000000000000, 0x0008000000000000000),
      (0x400000000000000000007FF8000000000000, 0x5000000000000000000),
      (0x400000000000000000007FF0000000000000, 0x5000000000000000000),
      (0x40FF00000000000000004034000000000000, 0x6010000000000000000)] = true := by
  decide +kernel

/-- Section 2.5: encode truncates; 0.3 / 0.1 falls just below 3. -/
theorem test_slot_asraw_vectors :
    answers [(0x420000000000000000004034B33333333333, 20), (0x420000000000000000004034FFBE76C8B439, 20),
      (0x4200000000000000000040EF5FE000000000, 0xFAFF), (0x420000000000000000008000000000000000, 0),
      (0x4200000000000000000040F1170000000000, 0x5000000000000000000),
      (0x42010000000000000000402499999999999A, 0x64), (0x42010000000000000000C044000000000000, 0),
      (0x420200000000000000003FD3333333333333, 2), (0x420200000000000000003FD3333333333334, 3)] = true := by
  decide +kernel

/-- Section 2.5: decode rounds twice; 3 * 0.1 is 0.30000000000000004. -/
theorem test_slot_fromraw_vectors :
    answers [(0x410000000000000000000000000100000014, 0x0004034000000000000),
      (0x41000000000000000000000000000000FB00, 0x5000000000000000000),
      (0x410100000000000000000000000000000064, 0x0004024000000000000),
      (0x410100000000000000000000000000000119, 0x5000000000000000000),
      (0x410200000000000000000000000000000003, 0x0003FD3333333333334),
      (0x41020000000000000000000000000000FAFF, 0x00040B9198000000000)] = true := by
  decide +kernel

/-- Section 2.5: the constants. -/
theorem test_slot_constant_vectors :
    answers [(0x430100000000000000000000000000000000, 0x0003FE0000000000000),
      (0x440100000000000000000000000000000000, 0x000C044000000000000),
      (0x450100000000000000000000000000000000, 0x000C044000000000000),
      (0x460000000000000000000000000000000000, 0x00040EF5FE000000000),
      (0x470200000000000000000000000000000000, 2), (0x430300000000000000000000000000000000, 0x6010000000000000000)] =
      true := by
  decide +kernel

/-- Section 2.6: reserved `op` values. -/
theorem test_reserved_op_vectors :
    answers [(0x0001112233445566778899AABBCCDDEEFF00, 0x6000000000000000000),
      (0xFF01112233445566778899AABBCCDDEEFF00, 0x6000000000000000000)] = true := by
  decide +kernel

/-- The port after reset holds the response to the request on it (R152). -/
theorem test_reset_response_is_current : response 0 = some State.reset.rsp.toNat := by decide +kernel

/-- A record with overlapping 8-bit ranges is refused (R153). -/
theorem test_step_refuses_ill_formed :
    (match step (State.reset.withCfg
        { Config.atReset with ranges := { Config.atReset.ranges with w8 := ⟨0xFA#32, 0xFA#32, 0xFE#32⟩ } }) with
      | .refused .illFormedConfiguration => true
      | _ => false) = true := by
  decide +kernel

/-! Binary64, from IEEE 754 (G1): a tie to even, an overflow, a subnormal, an exact zero sum. -/

theorem test_fadd_tie_to_even : F64.fadd 0x4340000000000000#64 0x3FF0000000000000#64 = 0x4340000000000000#64 := by
  decide +kernel
theorem test_fmul_overflow : F64.fmul 0x7FE0000000000000#64 0x4000000000000000#64 = 0x7FF0000000000000#64 := by
  decide +kernel
theorem test_fdiv_subnormal : F64.fdiv 0x0010000000000000#64 0x4000000000000000#64 = 0x0008000000000000#64 := by
  decide +kernel
theorem test_fsub_zero_sign : F64.fsub 0xBFF0000000000000#64 0xBFF0000000000000#64 = 0 := by decide +kernel

/-! Witnesses of the obligations' hypotheses. -/

theorem reset_cfg_wf : State.reset.cfg.wf = true := by decide +kernel

theorem witness_EncodeKeepsEveryPortBit :
    decode 0x470200000000000000000000000000000000#144 = .operation (.slotUnit 2) := by decide

theorem witness_ReservedOpDecodesToNothing :
    ReservedOp ((0x0F#8 ++ 0#136).toNat / 2 ^ 136) ∧ ReservedOp ((0x48#8 ++ 0#136).toNat / 2 ^ 136) ∧
      ¬ ReservedOp ((0x10#8 ++ 0#136).toNat / 2 ^ 136) ∧ ¬ ReservedOp ((0x47#8 ++ 0#136).toNat / 2 ^ 136) := by
  unfold ReservedOp
  decide

theorem witness_StepRunsDecodedOperation :
    let s := State.reset.present 0x3D0000000000000000000000000000000000#144
    s.cfg.wf = true ∧ decode s.req = .operation .cmdDflt :=
  ⟨reset_cfg_wf, by decide⟩

theorem witness_ReservedOpAnswersIllegalRequest :
    State.reset.cfg.wf = true ∧ ReservedOp (State.reset.req.toNat / 2 ^ 136) :=
  ⟨reset_cfg_wf, by unfold ReservedOp; decide⟩

theorem witness_ReservedSelAnswersIllegalRequest :
    1 < (2 : Byte).toNat ∧ 8 < (9 : Byte).toNat ∧ State.reset.cfg.slots.length ≤ (3 : Byte).toNat := by decide

/-- A slot that passes the check is well formed in R119's own words. -/
theorem wellFormedSlot_of_wf {d : SlotDef} (hd : d.wf = true) : WellFormedSlot d := by
  have hd' := hd
  simp only [SlotDef.wf, Bool.and_eq_true, bne_iff_ne, ne_eq] at hd'
  obtain ⟨⟨⟨⟨⟨⟨⟨hs, ho⟩, hmin⟩, hmax⟩, h0⟩, hle⟩, -⟩, -⟩ := hd'
  refine ⟨hs, ho, hmin, hmax, ?_, hle, fun v h1 h2 => ?_⟩
  · unfold F64.toUnits
    split <;> omega
  · have h := encodable_of_inBounds hd (by simp [inBounds, h1, h2] : inBounds d v = true)
    simp only [SlotDef.encodable, Bool.and_eq_true] at h
    exact h

theorem witness_StepTotalOnConfigurations :
    ConfigurationOfCore State.reset.cfg ∧
      ¬ ConfigurationOfCore (State.reset.withCfg { Config.atReset with slots := [] }).cfg := by
  refine ⟨⟨?_, by decide, by decide, by decide, by decide, ?_, _, _, rfl⟩, ?_⟩
  · rintro k W row h
    match k, h with
    | 0, h | 1, h | 2, h | 3, h | 4, h | 5, h | 6, h | 7, h | 8, h =>
      obtain ⟨rfl, rfl⟩ := Prod.mk.inj (Option.some.inj h)
      decide
    | k + 9, h => cases h
  · intro d hd
    have hall : State.reset.cfg.slots.all SlotDef.wf = true := by decide +kernel
    exact wellFormedSlot_of_wf (List.all_eq_true.1 hall d hd)
  · intro h
    have := h.2.2.2.1
    simp at this

/-- The step from reset goes on: the witness of every statement about a next state. -/
theorem witness_step_next : step State.reset = .next State.reset := by rfl

theorem witness_exec_next : ∃ t, exec .parDflt State.reset = .next t := ⟨_, rfl⟩

theorem witness_StepIgnoresEarlierResponse :
    let s := State.reset
    let s' : State := { s with rsp := 0 }
    s.cfg = s'.cfg ∧ s.req = s'.req ∧ s ≠ s' := ⟨rfl, rfl, by decide⟩

theorem witness_IgnoredBitsHaveNoEffect :
    let w := 0x100000000000000000000000000000000755#144
    let w' := 0x1000FFFFFFFFFFFFFFFFFFFFFFFFFFFFFF55#144 ||| 0x755#144
    w ≠ w' ∧ (w ^^^ w') &&& readBits (w.toNat / 2 ^ 136) (w.toNat / 2 ^ 128 % 256) = 0 := by decide

theorem witness_CodecUnitsReadNoConfiguration : readsNoCfg (.nameIg 0) = true := rfl

theorem witness_StepKeepsInvariant : State.reset.Inv ∧ step State.reset = .next State.reset :=
  ⟨⟨reset_cfg_wf, by decide⟩, witness_step_next⟩

theorem witness_IdDestinationAndGroup :
    (0x00EF1234#29).toNat / 2 ^ 16 % 256 ≤ 239 ∧ 240 ≤ (0x00F01234#29).toNat / 2 ^ 16 % 256 := by decide

theorem witness_NameIndustryGroup :
    (0x5000000000000000#64).toNat / 2 ^ 60 % 8 < 6 ∧ 6 ≤ (0x6000000000000000#64).toNat / 2 ^ 60 % 8 := by decide

/-- A construction that completes, for NameRoundTrip and NameReservedBit, with industry group 5 and with 6. -/
theorem witness_NameRoundTrip :
    Completes (.nameNew 170254#32 29#16 1 3 128 4 2 5 1) State.reset 0 0 0xD208801903A2990E ∧
      Completes (.nameNew 170254#32 29#16 1 3 128 4 2 6 1) State.reset 0 0 0xE208801903A2990E ∧
      (0xD208801903A2990E#64).toNat / 2 ^ 48 % 2 = 0 :=
  ⟨⟨_, rfl, rfl, rfl, by decide, by decide, by decide⟩, ⟨_, rfl, rfl, rfl, by decide, by decide, by decide⟩, by decide⟩

theorem witness_SignalPredicates :
    rangeRow State.reset.cfg.ranges (0 : Byte).toNat = some (4, Config.exampleRow 4) ∧
      rangeRow State.reset.cfg.ranges (8 : Byte).toNat = some (32, Config.exampleRow 32) := ⟨rfl, rfl⟩

theorem witness_SignalClassesAreExclusive : State.reset.cfg.wf = true ∧ (8 : Byte).toNat ≤ 8 := ⟨reset_cfg_wf, by decide⟩

theorem witness_ParameterCodes : (3 : Byte).toNat ≤ 3 ∧ 3 < (4 : Byte).toNat := by decide

theorem witness_CommandCodes :
    ((3 : Byte).toNat = 0 ∨ (3 : Byte).toNat = 1 ∨ (3 : Byte).toNat = 3) ∧
      ((2 : Byte).toNat = 2 ∨ 3 < (2 : Byte).toNat) ∧ ((4 : Byte).toNat = 2 ∨ 3 < (4 : Byte).toNat) := by decide

/-- For every statement about slot 0: the entry, a value at each bound, a value outside, under a configuration of
CORE. -/
theorem witness_SlotStatements :
    State.reset.cfg.wf = true ∧ State.reset.cfg.slots[(0 : Byte).toNat]? = some (Config.slot0 0) ∧
      (F64.fle (Config.slot0 0).min 0x8000000000000000#64 = true ∧
        F64.fle 0x8000000000000000#64 (Config.slot0 0).max = true) ∧
      (F64.fle (Config.slot0 0).min 0x40EF5FE000000000#64 = true ∧
        F64.fle 0x40EF5FE000000000#64 (Config.slot0 0).max = true) ∧
      ¬ (F64.fle (Config.slot0 0).min 0x40EF5FE000000001#64 = true ∧
        F64.fle 0x40EF5FE000000001#64 (Config.slot0 0).max = true) :=
  ⟨reset_cfg_wf, rfl, by decide, by decide, by decide⟩

/-- For SlotFromRawScales: a raw integer in bounds and the next one, out of bounds. -/
theorem witness_SlotFromRawScales :
    let p := fun raw : BitVec 32 => F64.fadd (F64.fmul (F64.ofU32 raw) (Config.slot0 0).scale) (Config.slot0 0).offset
    (F64.fle (Config.slot0 0).min (p 64255#32) = true ∧ F64.fle (p 64255#32) (Config.slot0 0).max = true) ∧
      ¬ (F64.fle (Config.slot0 0).min (p 64256#32) = true ∧ F64.fle (p 64256#32) (Config.slot0 0).max = true) := by
  decide +kernel

/-- For SlotAsRawTruncates: a quotient at least 0 and one below it, in bounds of the same well-formed slot. -/
theorem witness_SlotAsRawTruncates :
    let d : SlotDef := ⟨0x3FF0000000000000#64, 0, 0xBFE0000000000000#64, 0x40EF5FE000000000#64, 0⟩
    d.wf = true ∧ inBounds d 0xBFE0000000000000#64 = true ∧ F64.toUnits (d.quotient 0xBFE0000000000000#64) < 0 ∧
      inBounds d 0x4034B33333333333#64 = true ∧ 0 ≤ F64.toUnits (d.quotient 0x4034B33333333333#64) := by
  decide +kernel

theorem witness_BoundsRefuseNaNAndInfinity :
    F64.infMag ≤ F64.mag 0xFFF0000000000000#64 ∧ F64.infMag ≤ F64.mag 0x7FF8000000000000#64 := by decide

theorem witness_SlotInstancesEncode :
    Completes (.slotNew 0 0x4034000000000000#64) State.reset 0 0 0x4034000000000000 ∧
      Completes (.slotFromRaw 0 20#32) State.reset 0 0 0x4034000000000000 :=
  ⟨⟨_, rfl, rfl, rfl, by decide +kernel, by decide +kernel, by decide +kernel⟩,
    ⟨_, rfl, rfl, rfl, by decide +kernel, by decide +kernel, by decide +kernel⟩⟩

/-- For SlotFromRawCorners: a well-formed slot whose offset is not zero, and one whose offset is. -/
theorem witness_SlotFromRawCorners :
    (∃ d ∈ State.reset.cfg.slots, WellFormedSlot d ∧ F64.toUnits d.offset ≠ 0) ∧
      ∃ d ∈ State.reset.cfg.slots, WellFormedSlot d ∧ F64.toUnits d.offset = 0 :=
  ⟨⟨⟨0x3FE0000000000000#64, 0xC044000000000000#64, 0xC044000000000000#64, 0x4059000000000000#64, 1⟩, by decide,
      wellFormedSlot_of_wf (by decide +kernel), by decide +kernel⟩,
    Config.slot0 0, by decide, wellFormedSlot_of_wf (by decide +kernel), by decide +kernel⟩

theorem witness_SlotZeroRoundTrip :
    State.reset.cfg.wf = true ∧ F64.fle 0 0x4034B33333333333#64 = true ∧
      F64.fle 0x4034B33333333333#64 0x40EF5FE000000000#64 = true := ⟨reset_cfg_wf, by decide, by decide⟩

theorem witness_NewSlotsChangeNoAnswer : (2 : Byte).toNat < State.reset.cfg.slots.length := by decide

/-- For the numerics: finite operands, a divisor that is not zero. -/
theorem witness_ArithmeticRoundsOnce :
    F64.isFinite 0x7FEFFFFFFFFFFFFF#64 = true ∧ F64.isFinite 1 = true ∧ F64.toUnits 1 ≠ 0 := by decide +kernel

end Sys2Proof.Tests
end

section
/-! PROOFS. The response port is written and never read (R10): a meaning and a step are functions of the
configuration and the request alone. -/

namespace Sys2Proof.Machine

@[simp] theorem State.fetch_with_rsp (s : State) (w : ResponseWord) :
    ({ s with rsp := w } : State).fetch = s.fetch := rfl

/-- SLOT.ASRAW reads the slot table only, on its refusing path too. -/
@[simp] theorem execSlotAsRaw_with_rsp (sel : Byte) (v : F64) (s : State) (w : ResponseWord) :
    execSlotAsRaw sel v { s with rsp := w } = execSlotAsRaw sel v s := by
  simp only [execSlotAsRaw, State.answer_with_rsp]

/-- Every meaning but SLOT.ASRAW is one `answer`, which discards the old response. -/
@[simp] theorem exec_with_rsp (i : Instr) (s : State) (w : ResponseWord) :
    exec i { s with rsp := w } = exec i s := by
  cases i with
  | slotAsRaw sel v => exact execSlotAsRaw_with_rsp sel v s w
  | _ => exact State.answer_with_rsp s _ w

@[simp] theorem execReservedOp_with_rsp (op : Byte) (s : State) (w : ResponseWord) :
    execReservedOp op { s with rsp := w } = execReservedOp op s := State.answer_with_rsp s _ w

/-- What a step does is independent of the response that stood on the port before it. -/
@[simp] theorem step_with_rsp (s : State) (w : ResponseWord) : step { s with rsp := w } = step s := by
  simp only [step, State.fetch_with_rsp, exec_with_rsp, execReservedOp_with_rsp]

/-- States that agree on the configuration and the request differ in the response port only. -/
theorem State.eq_with_rsp {s s' : State} (hcfg : s.cfg = s'.cfg) (hreq : s.req = s'.req) :
    s = { s' with rsp := s.rsp } := by
  cases s
  cases s'
  simp_all

/-- Settles O11: the two states differ in the response port only, which no step reads. -/
theorem stepIgnoresEarlierResponse : Obligations.StepIgnoresEarlierResponse := by
  intro s s' hcfg hreq
  calc step s = step { s' with rsp := s.rsp } := congrArg step (State.eq_with_rsp hcfg hreq)
    _ = step s' := step_with_rsp s' s.rsp

end Sys2Proof.Machine
end

section
/-! PROOFS. Whole numbers below 2^53 are binary64 values, so that `trunc` of a value between -1 and 2^32 is exact and
converts to a `u32` (spec/44_slot.md rule R125). -/

namespace Sys2Proof.Machine.F64

/-- The pattern with exponent field `k + 1` and the 53-bit significand `m`. -/
theorem unitsOfMag_significand {m : Nat} (k : Nat) (hlow : 2 ^ 52 ≤ m) (hhigh : m < 2 ^ 53) :
    unitsOfMag (k * 2 ^ 52 + m) = m * 2 ^ k := by
  have hexp : (k * 2 ^ 52 + m) / 2 ^ 52 - 1 = k := by omega
  have hfrac : 2 ^ 52 + (k * 2 ^ 52 + m) % 2 ^ 52 = m := by omega
  rw [unitsOfMag_of_le (by omega), hexp, hfrac]

/-- A whole number below 2^53 has a finite pattern: its significand is shifted up to 53 bits. -/
theorem exists_mag_of_whole {n : Nat} (h : n < 2 ^ 53) : ∃ m < infMag, unitsOfMag m = n * unitsPerOne := by
  rcases Nat.eq_zero_or_pos n with rfl | hn
  · exact ⟨0, by decide, by simp⟩
  · have hlog : n.log2 ≤ 52 := Nat.lt_succ_iff.1 ((Nat.log2_lt hn.ne').2 h)
    have hlow : 2 ^ 52 ≤ n * 2 ^ (52 - n.log2) := by
      calc 2 ^ 52 = 2 ^ n.log2 * 2 ^ (52 - n.log2) := by rw [← pow_add, Nat.add_sub_cancel' hlog]
        _ ≤ n * 2 ^ (52 - n.log2) := Nat.mul_le_mul_right _ (Nat.log2_self_le hn.ne')
    have hhigh : n * 2 ^ (52 - n.log2) < 2 ^ 53 := by
      calc n * 2 ^ (52 - n.log2) < 2 ^ (n.log2 + 1) * 2 ^ (52 - n.log2) :=
            Nat.mul_lt_mul_of_pos_right Nat.lt_log2_self (by positivity)
        _ = 2 ^ 53 := by rw [← pow_add]; congr 1; omega
    refine ⟨(1022 + n.log2) * 2 ^ 52 + n * 2 ^ (52 - n.log2), ?_, ?_⟩
    · rw [infMag]
      omega
    · rw [unitsOfMag_significand _ hlow hhigh, unitsPerOne_eq, mul_assoc, ← pow_add]
      congr 2
      omega

/-- Rounding a whole number below 2^53 gives a finite pattern of that same value. -/
theorem roundMag_whole {n : Nat} (h : n < 2 ^ 53) :
    roundMag (n * unitsPerOne) 1 < infMag ∧ unitsOfMag (roundMag (n * unitsPerOne) 1) = n * unitsPerOne := by
  obtain ⟨m, hm, hunits⟩ := exists_mag_of_whole h
  rw [← hunits, roundMag_unitsOfMag hm.le]
  exact ⟨hm, rfl⟩

/-- `trunc` of a finite value whose whole part is below 2^53. -/
theorem trunc_of_wholePart_lt {x : F64} (hx : isFinite x = true) (h : wholePart x < 2 ^ 53) :
    isFinite (trunc x) = true ∧ (trunc x).msb = x.msb ∧ units (trunc x) = wholePart x * unitsPerOne := by
  obtain ⟨hlt, hunits⟩ := roundMag_whole h
  have hmag := roundMag_lt (wholePart x * unitsPerOne) 1
  rw [trunc, if_pos hx, isFinite, units, mag_ofSignMag _ hmag, msb_ofSignMag _ hmag]
  exact ⟨by simpa using hlt, rfl, hunits⟩

theorem fle_of_flt {x y : F64} (h : flt x y = true) : fle x y = true := by
  obtain ⟨hx, hy, hlt⟩ := flt_iff.1 h
  exact fle_iff.2 ⟨hx, hy, hlt.le⟩

theorem toUnits_minusOne : toUnits minusOne = -(unitsPerOne : Int) := by decide +kernel

theorem toUnits_two32 : toUnits two32 = ((2 ^ 32 * unitsPerOne : Nat) : Int) := by decide +kernel

/-- Between -1 and 2^32 the whole part fits in 32 bits, and it is zero below zero. -/
theorem wholePart_of_between {x : F64} (h1 : flt minusOne x = true) (h2 : flt x two32 = true) :
    wholePart x < 2 ^ 32 ∧ (x.msb = true → wholePart x = 0) := by
  obtain ⟨-, -, h1⟩ := flt_iff.1 h1
  obtain ⟨-, -, h2⟩ := flt_iff.1 h2
  rw [key_lt_key_iff, toUnits_minusOne, toUnits] at h1
  rw [key_lt_key_iff, toUnits_two32, toUnits] at h2
  unfold wholePart
  cases hneg : x.msb with
  | true =>
    rw [hneg, if_pos rfl] at h1
    have hzero : units x / unitsPerOne = 0 := Nat.div_eq_of_lt (by omega)
    simp [hzero]
  | false =>
    rw [hneg, if_neg Bool.false_ne_true] at h2
    exact ⟨Nat.div_lt_of_lt_mul (by rw [Nat.mul_comm]; omega), fun h => by cases h⟩

/-- Between -1 and 2^32 the conversion of R125 is defined, and gives the whole part. -/
theorem toU32?_trunc_of_between {x : F64} (h1 : flt minusOne x = true) (h2 : flt x two32 = true) :
    toU32? (trunc x) = some (BitVec.ofNat 32 (wholePart x)) := by
  have hx : isFinite x = true := isFinite_of_between (by decide) (by decide) (fle_of_flt h1) (fle_of_flt h2)
  obtain ⟨hlt, hneg⟩ := wholePart_of_between h1 h2
  obtain ⟨hfin, hmsb, hunits⟩ := trunc_of_wholePart_lt hx (by omega)
  have hpos : 0 < unitsPerOne := by decide
  have hwhole : wholePart (trunc x) = wholePart x := by rw [wholePart, hunits, Nat.mul_div_cancel _ hpos]
  have hsign : (!(trunc x).msb || units (trunc x) == 0) = true := by
    cases hm : x.msb <;> simp [hmsb, hm, hunits, hneg]
  rw [toU32?, hwhole, hsign, hunits, hfin]
  simpa using hlt

end Sys2Proof.Machine.F64
end

section
/-! PROOFS. Under a configuration of CORE every step answers (R9, R153), and a session is one function of the request
mapped over its requests (R40). -/

namespace Sys2Proof.Machine

/-- The encode conversion is defined for every value in bounds of a well-formed slot (R119 d, R125). -/
theorem rawOf?_of_inBounds {d : SlotDef} {v : F64} (hd : d.wf = true) (hv : inBounds d v = true) :
    rawOf? d v = some (BitVec.ofNat 32 (F64.wholePart (d.quotient v))) := by
  have henc := encodable_of_inBounds hd hv
  rw [SlotDef.encodable, Bool.and_eq_true] at henc
  exact F64.toU32?_trunc_of_between henc.1 henc.2

/-- Every entry of the slot table of a configuration of CORE is well formed (R153). -/
theorem slot_wf_of_cfg_wf {c : Cfg} (hc : c.wf = true) {k : Nat} {d : SlotDef} (h : c.slots[k]? = some d) :
    d.wf = true := by
  simp only [Cfg.wf, Bool.and_eq_true] at hc
  obtain ⟨⟨-, hslots⟩, -⟩ := hc
  exact List.all_eq_true.1 hslots d (List.mem_of_getElem? h)

/-- Under a configuration of CORE every operation answers. -/
theorem exec_eq_answer (i : Instr) {s : State} (hs : s.cfg.wf = true) : ∃ p, exec i s = s.answer p := by
  rcases exec_cases i s with hp | ⟨sel, v, d, -, hd, hv, hnone, -⟩
  · exact hp
  · rw [rawOf?_of_inBounds (slot_wf_of_cfg_wf hs hd) hv] at hnone
    cases hnone

/-- Under a configuration of CORE every step answers. -/
theorem step_eq_answer {s : State} (hs : s.cfg.wf = true) : ∃ p, step s = s.answer p := by
  rcases step_cases s with ⟨-, i, -, h⟩ | ⟨-, op, -, h⟩ | ⟨hf, -⟩
  · rw [h]
    exact exec_eq_answer i hs
  · exact ⟨_, h⟩
  · rw [hs] at hf
    cases hf

/-- `f` is the function that CORE computes under `cfg`: a step answers `f` of the request on the port. -/
def Computes (cfg : Cfg) (f : RequestWord → ResponseWord) : Prop :=
  ∀ (s : State) (q : RequestWord), s.cfg = cfg → step (s.present q) = .next ⟨cfg, q, f q⟩

/-- A configuration of CORE computes one function of the request: the step from any state is the step from the state
whose response port holds 0, since no step reads that port. -/
theorem exists_computes {cfg : Cfg} (hcfg : cfg.wf = true) : ∃ f, Computes cfg f := by
  have hstep : ∀ q : RequestWord, ∃ p, step ⟨cfg, q, 0⟩ = State.answer ⟨cfg, q, 0⟩ p :=
    fun q => step_eq_answer (s := ⟨cfg, q, 0⟩) hcfg
  choose p hp using hstep
  refine ⟨fun q => (p q).word, fun s q hs => ?_⟩
  calc step (s.present q) = step ⟨cfg, q, 0⟩ := stepIgnoresEarlierResponse _ _ hs rfl
    _ = .next ⟨cfg, q, (p q).word⟩ := hp q

/-- The responses to a sequence of requests are `f` mapped over it: each step leaves the configuration as it was. -/
theorem session_eq_map {cfg : Cfg} {f : RequestWord → ResponseWord} (hf : Computes cfg f) (qs : List RequestWord) :
    ∀ s : State, s.cfg = cfg → session s qs = qs.map f := by
  induction qs with
  | nil => intro s _; rfl
  | cons q qs ih =>
    intro s hs
    simp only [session, hf s q hs, List.map_cons, ih ⟨cfg, q, f q⟩ rfl]

/-- Settles O14: a session maps one function over the requests, and mapping respects permutation. -/
theorem sessionIsOrderIndependent : Obligations.SessionIsOrderIndependent := by
  intro cfg hcfg
  obtain ⟨f, hf⟩ := exists_computes hcfg
  refine ⟨f, fun s hs => ⟨fun q => ⟨_, hf s q hs, rfl⟩, fun qs => session_eq_map hf qs s hs, ?_⟩⟩
  intro qs qs' hperm
  rw [session_eq_map hf qs s hs, session_eq_map hf qs' s hs]
  exact hperm.map f

end Sys2Proof.Machine
end

section
/-! PROOFS. Reserved requests (spec/30_encoding.md rules R53, R54): a reserved `op`, and a `sel` outside the operation's
legal set, have one answer each. -/

namespace Sys2Proof

open Claim

@[simp] theorem Request.op_toNat_ofWord (w : RequestWord) : (Request.ofWord w).op.toNat = w.toNat / 2 ^ 136 := by
  have := w.isLt
  simp only [Request.ofWord, BitVec.extractLsb'_toNat, Nat.shiftRight_eq_div_pow]
  omega

@[simp] theorem Request.sel_toNat_ofWord (w : RequestWord) :
    (Request.ofWord w).sel.toNat = w.toNat / 2 ^ 128 % 256 := by
  simp only [Request.ofWord, BitVec.extractLsb'_toNat, Nat.shiftRight_eq_div_pow]

/-- None of the 39 rows of R49 has a reserved `op`. -/
theorem Request.decode_of_reservedOp {q : Request} (h : ReservedOp q.op.toNat) : q.decode = .reservedOp q.op := by
  unfold ReservedOp at h
  unfold Request.decode
  split
  case h_40 => rfl
  all_goals omega

end Sys2Proof

namespace Sys2Proof.Machine

theorem State.answered_with_word (s : State) (p : Response) :
    s.Answered { s with rsp := p.word } p.status.code.toNat p.info.toNat p.r.toNat :=
  ⟨rfl, rfl, rspStatus_word p, rspInfo_word p, rspR_word p⟩

/-- Settles O6: a reserved `op` decodes to no operation, so the step gives the one answer of reserved values. -/
theorem reservedOpAnswersIllegalRequest : Obligations.ReservedOpAnswersIllegalRequest := by
  intro s hs hop
  have hdecode : decode s.req = .reservedOp (Request.ofWord s.req).op :=
    Request.decode_of_reservedOp (by rwa [Request.op_toNat_ofWord])
  rcases step_cases s with ⟨-, i, hi, -⟩ | ⟨-, op, -, hstep⟩ | ⟨hf, -⟩
  · rw [hdecode] at hi
    cases hi
  · exact ⟨_, hstep, s.answered_with_word _⟩
  · rw [hs] at hf
    cases hf

theorem completes_of_illegalSel {i : Instr} {s : State} (h : exec i s = s.answer illegalSel) :
    Completes i s 6 1 0 := completes_of_answer h

/-- SLOT.ASRAW tests `sel` first, as the operations that go through `withSlot` do. -/
theorem execSlotAsRaw_illegal {s : State} {sel : Byte} (h : s.cfg.slots.length ≤ sel.toNat) (v : F64) :
    execSlotAsRaw sel v s = s.answer illegalSel := by
  rw [execSlotAsRaw, List.getElem?_eq_none h]

/-- Settles O7: each of the 21 operations asks its operand form, which answers an illegal `sel` before it reads
`a`. -/
theorem reservedSelAnswersIllegalRequest : Obligations.ReservedSelAnswersIllegalRequest := by
  intro s sel raw value v
  simp only [List.forall_mem_cons, List.not_mem_nil, false_imp_iff, implies_true, and_true]
  refine ⟨fun h => ?_, fun h => ?_, fun h => ?_⟩
  · have hid (k : Identifier → Response) : s.answer (withIdentifier sel raw k) = s.answer illegalSel :=
      congrArg s.answer (withIdentifier_illegal h raw k)
    refine ⟨?_, ?_, ?_, ?_, ?_, ?_, ?_, ?_⟩ <;> exact completes_of_illegalSel (hid _)
  · have hsig (k : CutPoints → Nat → Response) : s.answer (withSignal s.cfg sel value k) = s.answer illegalSel :=
      congrArg s.answer (withSignal_illegal h s.cfg value k)
    refine ⟨?_, ?_, ?_, ?_, ?_⟩ <;> exact completes_of_illegalSel (hsig _)
  · have hslot (k : SlotDef → Response) : s.answer (withSlot s.cfg sel k) = s.answer illegalSel :=
      congrArg s.answer (withSlot_illegal h k)
    have hasRaw := completes_of_illegalSel (i := .slotAsRaw sel v) (execSlotAsRaw_illegal h v)
    refine ⟨?_, ?_, hasRaw, ?_, ?_, ?_, ?_, ?_⟩ <;> exact completes_of_illegalSel (hslot _)

end Sys2Proof.Machine
end

section
/-! PROOFS. The masks of the bits a request is read by (spec/30_encoding.md rules R48, R50), and what two requests that
agree on a mask have in common. -/

namespace Sys2Proof

open Claim Machine

/-- Words that agree on a mask have the same slice wherever the mask is all ones. -/
theorem slice_eq_of_mask {n : Nat} {w w' m : BitVec n} (h : (w ^^^ w') &&& m = 0#n) {k l : Nat}
    (hm : m.extractLsb' k l = BitVec.allOnes l) : w.extractLsb' k l = w'.extractLsb' k l := by
  have hxor : w.extractLsb' k l ^^^ w'.extractLsb' k l = 0#l := by
    calc w.extractLsb' k l ^^^ w'.extractLsb' k l = (w ^^^ w').extractLsb' k l &&& m.extractLsb' k l := by
          rw [hm, BitVec.and_allOnes, BitVec.extractLsb'_xor]
      _ = 0#l := by rw [← BitVec.extractLsb'_and, h]; simp
  exact BitVec.xor_eq_zero_iff.1 hxor

theorem slice_of_slice {n : Nat} (x : BitVec n) {k l k' l' : Nat} (h : k' + l' ≤ l) :
    (x.extractLsb' k l).extractLsb' k' l' = x.extractLsb' (k + k') l' := by
  ext i hi
  have hlt : k' + i < l := by omega
  simp [hlt, Nat.add_assoc]

/-- The low bits of a raw identifier are the low bits of the request port. -/
theorem Request.raw29_slice_ofWord (w : RequestWord) {n : Nat} (hn : n ≤ 29) :
    (Request.ofWord w).raw29.extractLsb' 0 n = w.extractLsb' 0 n := by
  simp [Request.raw29, Request.ofWord, slice_of_slice, hn]

/-- The low bits of a raw value are the low bits of the request port. -/
theorem Request.raw32_slice_ofWord (w : RequestWord) {n : Nat} (hn : n ≤ 32) :
    (Request.ofWord w).raw32.extractLsb' 0 n = w.extractLsb' 0 n := by
  simp [Request.raw32, Request.ofWord, slice_of_slice, hn]

theorem portBits_op (op : Nat) : (portBits op).extractLsb' 136 8 = BitVec.allOnes 8 := by
  unfold portBits
  split_ifs <;> rfl

/-- The mask of `op`, `sel` and the low `n` bits of `a`. -/
def lowMask (n : Nat) : RequestWord := BitVec.ofNat 144 (ones 8 * 2 ^ 136 + ones 8 * 2 ^ 128 + ones n)

theorem lowMask_op : ∀ n ≤ 32, (lowMask n).extractLsb' 136 8 = BitVec.allOnes 8 := by decide

theorem lowMask_sel : ∀ n ≤ 32, (lowMask n).extractLsb' 128 8 = BitVec.allOnes 8 := by decide

theorem lowMask_low : ∀ n ≤ 32, (lowMask n).extractLsb' 0 n = BitVec.allOnes n := by decide

/-- How many low bits of `a` an identifier operation reads (R50, R54, R64). -/
def identifierBits (sel : Byte) : Nat := if sel.toNat = 0 then 11 else if sel.toNat = 1 then 29 else 0

theorem identifierBits_le (sel : Byte) : identifierBits sel ≤ 29 := by
  unfold identifierBits
  split_ifs <;> decide

/-- How many low bits of `a` a classifier operation reads (R50, R54, R94). -/
def signalBits (sel : Byte) : Nat := (codeBits sel).getD 0

/-- The statements' table of widths and the decoder of width codes are the same table (R94). -/
theorem codeBits_eq_map_bits (sel : Byte) : codeBits sel = (sigWidth? sel).map SigWidth.bits := by
  unfold codeBits sigWidth?
  split
  case h_10 => simp_all; omega
  all_goals simp_all [SigWidth.bits]

theorem signalBits_of_width {sel : Byte} {W : SigWidth} (h : sigWidth? sel = some W) : signalBits sel = W.bits := by
  rw [signalBits, codeBits_eq_map_bits, h]
  rfl

theorem signalBits_le (sel : Byte) : signalBits sel ≤ 32 := by
  rw [signalBits, codeBits_eq_map_bits]
  cases sigWidth? sel with
  | none => decide
  | some W => cases W <;> decide

theorem readBits_identifier {op : Nat} (hop : 0x10 ≤ op ∧ op ≤ 0x17) (sel : Byte) :
    readBits op sel.toNat = lowMask (identifierBits sel) := by
  rw [readBits, if_pos hop, lowMask, identifierBits]
  split_ifs <;> rfl

theorem readBits_signal {op : Nat} (hop : 0x30 ≤ op ∧ op ≤ 0x34) (sel : Byte) :
    readBits op sel.toNat = lowMask (signalBits sel) := by
  rw [readBits, if_neg (by omega), if_pos hop]
  rfl

theorem readBits_eq_portBits {op : Nat} (hid : ¬ (0x10 ≤ op ∧ op ≤ 0x17)) (hsig : ¬ (0x30 ≤ op ∧ op ≤ 0x34))
    (sel : Nat) : readBits op sel = portBits op := by
  rw [readBits, if_neg hid, if_neg hsig, BitVec.ofNat_toNat, BitVec.setWidth_eq]

theorem readBits_op (op : Nat) (sel : Byte) : (readBits op sel.toNat).extractLsb' 136 8 = BitVec.allOnes 8 := by
  by_cases hid : 0x10 ≤ op ∧ op ≤ 0x17
  · rw [readBits_identifier hid]
    exact lowMask_op _ ((identifierBits_le sel).trans (by decide))
  by_cases hsig : 0x30 ≤ op ∧ op ≤ 0x34
  · rw [readBits_signal hsig]
    exact lowMask_op _ (signalBits_le sel)
  · rw [readBits_eq_portBits hid hsig]
    exact portBits_op op

theorem identifier?_congr {sel : Byte} {raw raw' : BitVec 29}
    (h : raw.extractLsb' 0 (identifierBits sel) = raw'.extractLsb' 0 (identifierBits sel)) :
    identifier? sel raw = identifier? sel raw' := by
  unfold identifier?
  split
  case h_1 hsel =>
    rw [identifierBits, if_pos hsel] at h
    rw [h]
  case h_2 hsel =>
    rw [identifierBits, if_neg (by omega), if_pos hsel] at h
    simpa using h
  case h_3 => rfl

theorem sigOperand_congr {W : SigWidth} {value value' : BitVec 32}
    (h : value.extractLsb' 0 W.bits = value'.extractLsb' 0 W.bits) : sigOperand W value = sigOperand W value' := by
  simpa [sigOperand] using congrArg BitVec.toNat h

/-- A request whose `op` is this one reads the `l` bits from bit `k` up, whatever its `sel` holds. -/
abbrev ReadsSlice (op k l : Nat) : Prop :=
  ¬ (0x10 ≤ op ∧ op ≤ 0x17) ∧ ¬ (0x30 ≤ op ∧ op ≤ 0x34) ∧ (portBits op).extractLsb' k l = BitVec.allOnes l

/-- Two requests that differ only in bits that are ignored for the `op` and `sel` of the first (R55). -/
def SameReadBits (w w' : RequestWord) : Prop :=
  (w ^^^ w') &&& readBits (Request.ofWord w).op.toNat (Request.ofWord w).sel.toNat = 0#144

section
variable {w w' : RequestWord} (h : SameReadBits w w')
include h

theorem SameReadBits.op_eq : (Request.ofWord w).op = (Request.ofWord w').op :=
  slice_eq_of_mask h (readBits_op _ _)

theorem SameReadBits.slice_eq {op k l : Nat} (hop : (Request.ofWord w).op.toNat = op) (hr : ReadsSlice op k l) :
    w.extractLsb' k l = w'.extractLsb' k l := by
  obtain ⟨hid, hsig, hm⟩ := hr
  rw [SameReadBits, hop, readBits_eq_portBits hid hsig] at h
  exact slice_eq_of_mask h hm

theorem SameReadBits.sel_eq {op : Nat} (hop : (Request.ofWord w).op.toNat = op) (hr : ReadsSlice op 128 8) :
    (Request.ofWord w).sel = (Request.ofWord w').sel := h.slice_eq hop hr

theorem SameReadBits.a_eq {op : Nat} (hop : (Request.ofWord w).op.toNat = op) (hr : ReadsSlice op 0 64) :
    (Request.ofWord w).a = (Request.ofWord w').a := h.slice_eq hop hr

theorem SameReadBits.raw32_eq {op : Nat} (hop : (Request.ofWord w).op.toNat = op) (hr : ReadsSlice op 0 32) :
    (Request.ofWord w).raw32 = (Request.ofWord w').raw32 := by
  simpa [Request.raw32, Request.ofWord, slice_of_slice] using h.slice_eq hop hr

theorem SameReadBits.code_eq {op : Nat} (hop : (Request.ofWord w).op.toNat = op) (hr : ReadsSlice op 0 8) :
    (Request.ofWord w).code = (Request.ofWord w').code := by
  simpa [Request.code, Request.ofWord, slice_of_slice] using h.slice_eq hop hr

/-- Format NP reads all of `a` and `b[39:0]`, which the nine ports divide. -/
theorem SameReadBits.nameNew_eq {op : Nat} (hop : (Request.ofWord w).op.toNat = op) (hr : ReadsSlice op 0 104) :
    (Request.ofWord w).nameNew = (Request.ofWord w').nameNew := by
  have hports : (w.extractLsb' 0 104) = w'.extractLsb' 0 104 := h.slice_eq hop hr
  have hport (k l : Nat) (hkl : k + l ≤ 104) : w.extractLsb' k l = w'.extractLsb' k l := by
    simpa [slice_of_slice, hkl] using congrArg (BitVec.extractLsb' k l) hports
  simp [Request.nameNew, Request.ofWord, slice_of_slice, hport]

/-- Format I: the same `sel`, and the same identifier operand. -/
theorem SameReadBits.identifier_eq {op : Nat} (hop : (Request.ofWord w).op.toNat = op)
    (hid : 0x10 ≤ op ∧ op ≤ 0x17) :
    (Request.ofWord w).sel = (Request.ofWord w').sel ∧
      identifier? (Request.ofWord w).sel (Request.ofWord w).raw29 =
        identifier? (Request.ofWord w).sel (Request.ofWord w').raw29 := by
  rw [SameReadBits, hop, readBits_identifier hid] at h
  have hle := identifierBits_le (Request.ofWord w).sel
  have hlow := slice_eq_of_mask h (lowMask_low _ (by omega))
  refine ⟨slice_eq_of_mask h (lowMask_sel _ (by omega)), identifier?_congr ?_⟩
  rwa [Request.raw29_slice_ofWord w hle, Request.raw29_slice_ofWord w' hle]

/-- Format S: the same `sel`, and the same signal operand at every width it selects. -/
theorem SameReadBits.signal_eq {op : Nat} (hop : (Request.ofWord w).op.toNat = op)
    (hsig : 0x30 ≤ op ∧ op ≤ 0x34) :
    (Request.ofWord w).sel = (Request.ofWord w').sel ∧
      ∀ W, sigWidth? (Request.ofWord w).sel = some W →
        sigOperand W (Request.ofWord w).raw32 = sigOperand W (Request.ofWord w').raw32 := by
  rw [SameReadBits, hop, readBits_signal hsig] at h
  have hle := signalBits_le (Request.ofWord w).sel
  have hlow := slice_eq_of_mask h (lowMask_low _ hle)
  refine ⟨slice_eq_of_mask h (lowMask_sel _ hle), fun W hW => sigOperand_congr ?_⟩
  rw [signalBits_of_width hW] at hle hlow
  rwa [Request.raw32_slice_ofWord w hle, Request.raw32_slice_ofWord w' hle]

end

end Sys2Proof
end

section
/-! PROOFS. Ignored bits have no effect (spec/30_encoding.md rule R55): requests that agree on the bits that are read
spell operations of one meaning. -/

namespace Sys2Proof.Machine

/-- What a decoded request means: the evaluation of `step` under a configuration of CORE. -/
def meaning : Decoded → State → Result
  | .operation i => exec i
  | .reservedOp op => execReservedOp op

theorem step_of_wf {s : State} (hs : s.cfg.wf = true) : step s = meaning s.fetch s := by
  rw [step, if_pos hs]
  cases s.fetch <;> rfl

theorem step_of_not_wf {s : State} (hs : ¬ s.cfg.wf = true) : step s = .refused .illFormedConfiguration := by
  rw [step, if_neg hs]

/-- SLOT.ASRAW reads nothing of the request port, on its refusing path too. -/
theorem sameAnswer_execSlotAsRaw (sel : Byte) (v : F64) (s : State) (w w' : RequestWord) :
    SameAnswer (execSlotAsRaw sel v (s.present w)) (execSlotAsRaw sel v (s.present w')) := by
  simp only [execSlotAsRaw, State.present_cfg]
  split
  · exact ⟨rfl, rfl⟩
  · split
    · split
      · exact ⟨rfl, rfl⟩
      · rfl
    · exact ⟨rfl, rfl⟩

/-- A decoded request means the same whatever the request port holds. -/
theorem sameAnswer_meaning (d : Decoded) (s : State) (w w' : RequestWord) :
    SameAnswer (meaning d (s.present w)) (meaning d (s.present w')) := by
  cases d with
  | reservedOp op => exact ⟨rfl, rfl⟩
  | operation i =>
    cases i with
    | slotAsRaw sel v => exact sameAnswer_execSlotAsRaw sel v s w w'
    | _ => exact ⟨rfl, rfl⟩

theorem withIdentifier_congr {sel : Byte} {raw raw' : BitVec 29} (h : identifier? sel raw = identifier? sel raw')
    (k : Identifier → Response) : withIdentifier sel raw k = withIdentifier sel raw' k := by
  rw [withIdentifier, h]
  rfl

theorem withSignal_congr {sel : Byte} {value value' : BitVec 32}
    (h : ∀ W, sigWidth? sel = some W → sigOperand W value = sigOperand W value') (cfg : Cfg)
    (k : CutPoints → Nat → Response) : withSignal cfg sel value k = withSignal cfg sel value' k := by
  unfold withSignal
  cases hW : sigWidth? sel with
  | none => rfl
  | some W => simp only [h W hW]

/-- The decoder's 40 cases fall under the operand formats of R50, and what a format reads is what the two requests
share. -/
theorem meaning_decode_eq {w w' : RequestWord} (h : SameReadBits w w') : meaning (decode w) = meaning (decode w') := by
  unfold decode Request.decode
  rw [← h.op_eq]
  split
  -- format I
  case h_1 hop | h_2 hop | h_3 hop | h_4 hop | h_5 hop | h_6 hop | h_7 hop | h_8 hop =>
    obtain ⟨hsel, hid⟩ := h.identifier_eq hop (by decide)
    rw [← hsel]
    exact funext fun s => congrArg s.answer (withIdentifier_congr hid _)
  -- format NP
  case h_9 hop => rw [h.nameNew_eq hop (by decide)]
  -- format N
  case h_10 hop | h_11 hop | h_12 hop | h_13 hop | h_14 hop | h_15 hop | h_16 hop | h_17 hop | h_18 hop | h_19 hop
      | h_20 hop =>
    rw [h.a_eq hop (by decide)]
  -- format S
  case h_21 hop | h_22 hop | h_23 hop | h_24 hop | h_25 hop =>
    obtain ⟨hsel, hsig⟩ := h.signal_eq hop (by decide)
    rw [← hsel]
    exact funext fun s => congrArg s.answer (withSignal_congr hsig s.cfg _)
  -- format C
  case h_26 hop | h_27 hop | h_29 hop | h_30 hop => rw [h.code_eq hop (by decide)]
  -- format Z, and a reserved `op`
  case h_28 | h_31 | h_40 => rfl
  -- format F
  case h_32 hop | h_34 hop => rw [h.sel_eq hop (by decide), h.a_eq hop (by decide)]
  -- format U
  case h_33 hop => rw [h.sel_eq hop (by decide), h.raw32_eq hop (by decide)]
  -- format K
  case h_35 hop | h_36 hop | h_37 hop | h_38 hop | h_39 hop => rw [h.sel_eq hop (by decide)]

/-- Settles O13: the two requests decode to one meaning, and no meaning reads the request port again. -/
theorem ignoredBitsHaveNoEffect : Obligations.IgnoredBitsHaveNoEffect := by
  intro s w w' h
  rw [← Request.op_toNat_ofWord, ← Request.sel_toNat_ofWord] at h
  by_cases hs : s.cfg.wf = true
  · rw [step_of_wf (s := s.present w) hs, step_of_wf (s := s.present w') hs]
    have hmeaning : meaning (decode w) = meaning (decode w') := meaning_decode_eq h
    simp only [State.fetch, State.present_req, hmeaning]
    exact sameAnswer_meaning (decode w') s w w'
  · rw [step_of_not_wf (s := s.present w) hs, step_of_not_wf (s := s.present w') hs]
    rfl

end Sys2Proof.Machine
end

section
/-! PROOFS. The Identifier unit (spec/41_identifier.md rules R63 to R74): each operation answers one slice of the
identifier or is `ABSENT`, and the slices tile the identifier. -/

namespace Sys2Proof.Machine

theorem completes_of_absent {i : Instr} {s : State} (h : exec i s = s.answer absent) : Completes i s 1 0 0 :=
  completes_of_answer h

/-- An operation that responds with a slice no wider than `r` completes with `OK` and that slice (R46, R51). -/
theorem completes_of_slice {i : Instr} {s : State} {n : Nat} {x : BitVec n} {k l : Nat}
    (h : exec i s = s.answer (respond (x.extractLsb' k l))) (hl : l ≤ 64) :
    Completes i s 0 0 (x.toNat / 2 ^ k % 2 ^ l) := by
  refine (completes_iff_of_answer h).2 ⟨rfl, rfl, ?_⟩
  rw [respond_r, BitVec.toNat_setWidth_of_le hl, BitVec.extractLsb'_toNat, Nat.shiftRight_eq_div_pow]

/-- A Standard identifier reads the low 11 bits of the operand (R64). -/
theorem standardRaw_toNat (raw : BitVec 29) : (raw.extractLsb' 0 11).toNat = raw.toNat % 2 ^ 11 := by
  rw [BitVec.extractLsb'_toNat, Nat.shiftRight_zero]

theorem pduFormat_toNat (raw : BitVec 29) : (pduFormat raw).toNat = raw.toNat / 2 ^ 16 % 256 := by
  rw [pduFormat, BitVec.extractLsb'_toNat, Nat.shiftRight_eq_div_pow]

theorem pduFormat_le_239_iff (raw : BitVec 29) : pduFormat raw ≤ 239 ↔ raw.toNat / 2 ^ 16 % 256 ≤ 239 := by
  rw [BitVec.le_def, pduFormat_toNat]
  rfl

theorem le_pduFormat_240_iff (raw : BitVec 29) : 240 ≤ pduFormat raw ↔ 240 ≤ raw.toNat / 2 ^ 16 % 256 := by
  rw [BitVec.le_def, pduFormat_toNat]
  rfl

theorem exec_idDa_extended (raw : BitVec 29) (s : State) : exec (.idDa 1 raw) s =
    s.answer (if pduFormat raw ≤ 239 then respond (pduSpecific raw) else absent) := rfl

theorem exec_idGe_extended (raw : BitVec 29) (s : State) : exec (.idGe 1 raw) s =
    s.answer (if 240 ≤ pduFormat raw then respond (pduSpecific raw) else absent) := rfl

/-- The six Extended-only operations are `ABSENT` for a Standard identifier (R65). -/
theorem extendedOnly_standard_absent (s : State) (raw : BitVec 29) :
    ∀ i ∈ [Instr.idPf 0 raw, .idPs 0 raw, .idDa 0 raw, .idGe 0 raw, .idDp 0 raw, .idEdp 0 raw],
      Completes i s 1 0 0 := by
  simp only [List.forall_mem_cons, List.not_mem_nil, false_imp_iff, implies_true, and_true]
  refine ⟨?_, ?_, ?_, ?_, ?_, ?_⟩ <;> exact completes_of_absent rfl

/-- Settles O20: the priority of a Standard identifier is a slice of its 11 bits, that of an Extended one the top of
its 29 bits. -/
theorem idPriority : Obligations.IdPriority := by
  intro s raw
  have hstandard : Completes (.idPrio 0 raw) s 0 0 ((raw.extractLsb' 0 11).toNat / 2 ^ 8 % 2 ^ 3) :=
    completes_of_slice rfl (by decide)
  have hextended : Completes (.idPrio 1 raw) s 0 0 (raw.toNat / 2 ^ 26 % 2 ^ 3) := completes_of_slice rfl (by decide)
  have hlow : raw.toNat % 2 ^ 11 / 2 ^ 8 % 2 ^ 3 = raw.toNat / 2 ^ 8 % 8 := by omega
  have htop : raw.toNat / 2 ^ 26 % 2 ^ 3 = raw.toNat / 2 ^ 26 := by omega
  rw [standardRaw_toNat, hlow] at hstandard
  rw [htop] at hextended
  exact ⟨hstandard, hextended⟩

/-- Settles O21: the low 8 bits of a Standard identifier's 11 bits are the low 8 bits of the operand. -/
theorem idSourceAddress : Obligations.IdSourceAddress := by
  intro s raw
  have hstandard : Completes (.idSa 0 raw) s 0 0 ((raw.extractLsb' 0 11).toNat / 2 ^ 0 % 2 ^ 8) :=
    completes_of_slice rfl (by decide)
  have hextended : Completes (.idSa 1 raw) s 0 0 (raw.toNat / 2 ^ 0 % 2 ^ 8) := completes_of_slice rfl (by decide)
  have hlow : raw.toNat % 2 ^ 11 / 2 ^ 0 % 2 ^ 8 = raw.toNat % 256 := by omega
  rw [standardRaw_toNat, hlow] at hstandard
  rw [pow_zero, Nat.div_one] at hextended
  exact ⟨hstandard, hextended⟩

/-- Settles O22: slices of an Extended identifier at R63's positions; the Standard case is R65's. -/
theorem idPduBytes : Obligations.IdPduBytes := by
  intro s raw
  have hstandard := extendedOnly_standard_absent s raw
  exact ⟨hstandard _ (by simp), completes_of_slice (k := 16) (l := 8) rfl (by decide),
    hstandard _ (by simp), completes_of_slice (k := 8) (l := 8) rfl (by decide)⟩

/-- Settles O23: the two tests of the PDU format exclude each other, with nothing between 239 and 240. -/
theorem idDestinationAndGroup : Obligations.IdDestinationAndGroup := by
  intro s raw
  have hstandard := extendedOnly_standard_absent s raw
  refine ⟨hstandard _ (by simp), hstandard _ (by simp), fun hpdu1 => ⟨?_, ?_⟩, fun hpdu2 => ⟨?_, ?_⟩⟩
  · have hda := exec_idDa_extended raw s
    rw [if_pos ((pduFormat_le_239_iff raw).2 hpdu1)] at hda
    exact completes_of_slice hda (by decide)
  · have hge := exec_idGe_extended raw s
    rw [if_neg (by rw [le_pduFormat_240_iff]; omega)] at hge
    exact completes_of_absent hge
  · have hda := exec_idDa_extended raw s
    rw [if_neg (by rw [pduFormat_le_239_iff]; omega)] at hda
    exact completes_of_absent hda
  · have hge := exec_idGe_extended raw s
    rw [if_pos ((le_pduFormat_240_iff raw).2 hpdu2)] at hge
    exact completes_of_slice hge (by decide)

/-- Settles O24: one-bit slices of an Extended identifier at R63's positions; the Standard case is R65's. -/
theorem idPageBits : Obligations.IdPageBits := by
  intro s raw
  have hstandard := extendedOnly_standard_absent s raw
  exact ⟨hstandard _ (by simp), completes_of_slice (k := 24) (l := 1) rfl (by decide),
    hstandard _ (by simp), completes_of_slice (k := 25) (l := 1) rfl (by decide)⟩

/-- The six fields of R63, from high to low, are the 29 bits. -/
theorem extended_fields_tile (raw : BitVec 29) :
    raw.toNat = ((((raw.toNat / 2 ^ 26 * 2 + raw.toNat / 2 ^ 25 % 2) * 2 + raw.toNat / 2 ^ 24 % 2) * 256 +
      raw.toNat / 2 ^ 16 % 256) * 256 + raw.toNat / 2 ^ 8 % 256) * 256 + raw.toNat % 256 := by
  omega

/-- Settles O25: the answers are those of O20 to O24; the PDU format says which of ID.DA and ID.GE is `OK`. -/
theorem idFieldsTileTheIdentifier : Obligations.IdFieldsTileTheIdentifier := by
  intro s raw
  obtain ⟨hprio₀, hprio⟩ := idPriority s raw
  obtain ⟨hsa₀, hsa⟩ := idSourceAddress s raw
  obtain ⟨-, hpf, -, hps⟩ := idPduBytes s raw
  obtain ⟨-, hdp, -, hedp⟩ := idPageBits s raw
  obtain ⟨-, -, hpdu1, hpdu2⟩ := idDestinationAndGroup s raw
  have hdage := (Nat.lt_or_ge (raw.toNat / 2 ^ 16 % 256) 240).imp (fun h => hpdu1 (Nat.le_of_lt_succ h)) hpdu2
  refine ⟨⟨_, _, _, _, _, _, hprio, hedp, hdp, hpf, hps, hsa, extended_fields_tile raw, ?_, ?_, ?_, ?_, ?_, ?_, hdage⟩,
    ⟨_, _, hprio₀, hsa₀, ?_, ?_, ?_⟩, extendedOnly_standard_absent s raw⟩ <;> omega

end Sys2Proof.Machine
end

section
/-! PROOFS. The Name unit (spec/42_name.md rules R77 to R92): the fields lie side by side, so that packing is a sum of
the values at their weights and an accessor is one digit of that sum. -/

namespace Sys2Proof.Machine

@[simp] theorem NameField.limit_toNat (f : NameField) : f.limit.toNat = 2 ^ f.width - 1 := by cases f <;> rfl

theorem NameField.offset_add_width_le (f : NameField) : f.offset + f.width ≤ 64 := by cases f <;> decide

theorem NameField.get_toNat (f : NameField) (n : Word) :
    (f.get n).toNat = n.toNat / 2 ^ f.offset % 2 ^ f.width := by
  rw [get, BitVec.toNat_and, BitVec.toNat_ushiftRight, limit_toNat, Nat.shiftRight_eq_div_pow,
    Nat.and_two_pow_sub_one_eq_mod]

theorem NameField.le_limit_iff (f : NameField) (v : Word) : v ≤ f.limit ↔ v.toNat < 2 ^ f.width := by
  have := Nat.two_pow_pos f.width
  rw [BitVec.le_def, limit_toNat]
  omega

/-- A value that fits ends below the end of its field. -/
theorem NameField.weighted_lt {f : NameField} {v : Word} (h : v ≤ f.limit) :
    v.toNat * 2 ^ f.offset < 2 ^ (f.offset + f.width) := by
  rw [pow_add, Nat.mul_comm]
  exact Nat.mul_lt_mul_of_pos_left ((f.le_limit_iff v).1 h) (Nat.two_pow_pos _)

/-- A value that fits loses no bit when it is put at its place. -/
theorem NameField.put_toNat {f : NameField} {v : Word} (h : v ≤ f.limit) :
    (f.put v).toNat = v.toNat * 2 ^ f.offset := by
  have hlt := (weighted_lt h).trans_le (Nat.pow_le_pow_right (by decide) f.offset_add_width_le)
  rw [put, BitVec.toNat_shiftLeft, Nat.shiftLeft_eq, Nat.mod_eq_of_lt hlt]

/-! Accessors -/

/-- A plain accessor completes with `OK` and its field, which is wholly in `r`. -/
theorem completes_of_answerField {i : Instr} {s : State} {n : Word} (f : NameField)
    (h : exec i s = answerField f n s) : Completes i s 0 0 (n.toNat / 2 ^ f.offset % 2 ^ f.width) := by
  refine (completes_iff_of_answer h).2 ⟨rfl, rfl, ?_⟩
  rw [respond_r, BitVec.setWidth_eq, NameField.get_toNat]

/-- Settles O28: every plain accessor answers the field at its row of R77; the lowest needs no quotient and the highest
no remainder. -/
theorem nameAccessorsReadTheirField : Obligations.NameAccessorsReadTheirField := by
  intro s n
  have hident : Completes (.nameIdent n) s 0 0 (n.toNat / 2 ^ 0 % 2 ^ 21) := completes_of_answerField .identity rfl
  have haac : Completes (.nameAac n) s 0 0 (n.toNat / 2 ^ 63 % 2 ^ 1) :=
    completes_of_answerField .arbitraryAddressCapable rfl
  have htop : n.toNat / 2 ^ 63 % 2 ^ 1 = n.toNat / 2 ^ 63 := by omega
  rw [pow_zero, Nat.div_one] at hident
  rw [htop] at haac
  exact ⟨hident, completes_of_answerField .manufacturerCode rfl, completes_of_answerField .ecuInstance rfl,
    completes_of_answerField .functionInstance rfl, completes_of_answerField .function rfl,
    completes_of_answerField .vehicleSystem rfl, completes_of_answerField .vehicleSystemInstance rfl, haac⟩

/-- The codes 0 to 5 name an industry group, whose tag is the code. -/
theorem IndustryGroup.exists_ofCode? {code : Nat} (h : code < 6) :
    ∃ g, ofCode? code = some g ∧ g.tag.toNat = code := by
  interval_cases code <;> exact ⟨_, rfl, rfl⟩

theorem IndustryGroup.ofCode?_eq_none {code : Nat} (h : 6 ≤ code) : ofCode? code = none := by
  unfold ofCode?
  split
  case h_7 => rfl
  all_goals omega

theorem exec_nameIg_of_group {n : Word} {g : IndustryGroup}
    (h : IndustryGroup.ofCode? (NameField.industryGroup.get n).toNat = some g) (s : State) :
    exec (.nameIg n) s = s.answer (respond g.tag) := by
  change execNameIg n s = _
  rw [execNameIg, h]

theorem exec_nameIg_of_noGroup {n : Word}
    (h : IndustryGroup.ofCode? (NameField.industryGroup.get n).toNat = none) (s : State) :
    exec (.nameIg n) s =
      s.answer (absentResult .unrecognizedVariant ((NameField.industryGroup.get n).setWidth 8)) := by
  change execNameIg n s = _
  rw [execNameIg, h]

/-- Settles O29: the code is the field of R77, and R23 names a group for the codes below 6 alone. -/
theorem nameIndustryGroup : Obligations.NameIndustryGroup := by
  intro s n
  have hcode : (NameField.industryGroup.get n).toNat = n.toNat / 2 ^ 60 % 8 := NameField.get_toNat _ n
  rw [← hcode]
  refine ⟨fun h => ?_, fun h => ?_⟩
  · obtain ⟨g, hg, htag⟩ := IndustryGroup.exists_ofCode? h
    refine (completes_iff_of_answer (exec_nameIg_of_group hg s)).2 ⟨rfl, rfl, ?_⟩
    rw [respond_r, BitVec.toNat_setWidth_of_le (by decide), htag]
  · refine (completes_iff_of_answer (exec_nameIg_of_noGroup (IndustryGroup.ofCode?_eq_none h) s)).2 ⟨rfl, ?_, rfl⟩
    rw [absentResult_info, BitVec.toNat_setWidth, Nat.mod_eq_of_lt (by omega)]

end Sys2Proof.Machine
end

section
/-! PROOFS. The wire form of a Name (spec/42_name.md rules R81, R82): the bytes are the word's digits in base 256. -/

namespace Sys2Proof.Machine

/-- One more byte below the gathered ones is one more digit, while the word has room for it. -/
theorem ofLanes_cons_toNat (b : Byte) {bs : List Byte} (h : (ofLanes bs).toNat < 2 ^ 56) :
    (ofLanes (b :: bs)).toNat = b.toNat + 2 ^ 8 * (ofLanes bs).toNat := by
  have hroom : (ofLanes bs).toNat <<< 8 < 2 ^ 64 := by
    rw [Nat.shiftLeft_eq]
    omega
  rw [ofLanes, BitVec.toNat_or, BitVec.toNat_setWidth_of_le (by decide), BitVec.toNat_shiftLeft,
    Nat.mod_eq_of_lt hroom, Nat.or_comm, ← Nat.shiftLeft_add_eq_or_of_lt b.isLt, Nat.shiftLeft_eq]
  ring

/-- The slices above the lowest byte are those of the word shifted down by a byte. -/
theorem extractLsb'_shiftRight_byte (n : Word) (i : Nat) :
    n.extractLsb' (8 * (i + 1)) 8 = (n >>> 8).extractLsb' (8 * i) 8 := by
  ext j hj
  simp only [BitVec.getElem_extractLsb', BitVec.getLsbD_ushiftRight]
  congr 1
  ring

/-- Gathering the low `k` bytes of a word gives its low `k` digits in base 256. -/
theorem ofLanes_lowBytes_toNat (k : Nat) : ∀ n : Word,
    (ofLanes ((List.range k).map fun i => n.extractLsb' (8 * i) 8)).toNat = n.toNat % (2 ^ 8) ^ k := by
  induction k with
  | zero => intro n; simp [ofLanes, Nat.mod_one]
  | succ k ih =>
    intro n
    have hrest := ih (n >>> 8)
    rw [BitVec.toNat_ushiftRight, Nat.shiftRight_eq_div_pow] at hrest
    have hroom : n.toNat / 2 ^ 8 % (2 ^ 8) ^ k < 2 ^ 56 := (Nat.mod_le _ _).trans_lt (by omega)
    simp only [List.range_succ_eq_map, List.map_cons, List.map_map, Function.comp_def, Nat.succ_eq_add_one,
      extractLsb'_shiftRight_byte]
    rw [ofLanes_cons_toNat _ (hrest ▸ hroom), hrest, BitVec.extractLsb'_toNat, Nat.mul_zero, Nat.shiftRight_zero,
      Nat.pow_succ' (n := k), Nat.mod_mul]

/-- Export and import are both the identity on the word. -/
@[simp] theorem ofLanes_lanes (n : Word) : ofLanes (lanes n) = n :=
  BitVec.eq_of_toNat_eq ((ofLanes_lowBytes_toNat 8 n).trans (Nat.mod_eq_of_lt n.isLt))

theorem completes_nameAsRaw (n : Word) (s : State) : Completes (.nameAsRaw n) s 0 0 n.toNat :=
  (completes_iff_of_answer rfl).2 ⟨rfl, rfl, by simp⟩

theorem completes_nameFromRaw (bytes : Word) (s : State) : Completes (.nameFromRaw bytes) s 0 0 bytes.toNat :=
  (completes_iff_of_answer rfl).2 ⟨rfl, rfl, by simp⟩

/-- A byte appended below a word is its lowest digit in base 256. -/
theorem toNat_append_byte {n : Nat} (x : BitVec n) (b : Byte) : (x ++ b).toNat = x.toNat * 256 + b.toNat := by
  rw [BitVec.toNat_append, ← Nat.shiftLeft_add_eq_or_of_lt b.isLt, Nat.shiftLeft_eq]

/-- Settles O27: both operations answer their operand, whose digits in base 256 are the bytes. -/
theorem nameWireFormIsLittleEndian : Obligations.NameWireFormIsLittleEndian := by
  intro s
  refine ⟨fun n => ⟨_, completes_nameAsRaw n s, fun _ _ => rfl⟩, fun b0 b1 b2 b3 b4 b5 b6 b7 => ?_,
    fun n => ⟨_, completes_nameAsRaw n s, ?_⟩, fun bytes => ⟨_, completes_nameFromRaw bytes s, ?_⟩⟩
  · have h := completes_nameFromRaw (b7 ++ b6 ++ b5 ++ b4 ++ b3 ++ b2 ++ b1 ++ b0) s
    simp only [toNat_append_byte] at h
    convert h using 1
    ring
  · rw [BitVec.ofNat_toNat, BitVec.setWidth_eq]
    exact completes_nameFromRaw n s
  · rw [BitVec.ofNat_toNat, BitVec.setWidth_eq]
    exact completes_nameAsRaw bytes s

end Sys2Proof.Machine
end

section
/-! PROOFS. NAME.NEW (spec/42_name.md rules R79, R80) and its round trip with the accessors (R92). -/

namespace Sys2Proof.Machine

/-- What NAME.NEW answers for a list of fields and their values (R80). -/
def nameResponse (args : List (NameField × Word)) : Response :=
  match firstOffender args with
  | some f => absentResult .outOfRange f.index
  | none => respond (packName args)

theorem nameResponse_of_offender {args : List (NameField × Word)} {f : NameField} (h : firstOffender args = some f) :
    nameResponse args = absentResult .outOfRange f.index := by
  rw [nameResponse, h]

theorem nameResponse_of_fits {args : List (NameField × Word)} (h : firstOffender args = none) :
    nameResponse args = respond (packName args) := by
  rw [nameResponse, h]

/-! The first offender -/

theorem firstOffender_eq_none_iff {args : List (NameField × Word)} :
    firstOffender args = none ↔ ∀ p ∈ args, p.2 ≤ p.1.limit := by
  simp [firstOffender]

/-- When the fields carry consecutive indices, the first offender's index is its place in the list. -/
theorem firstOffender_index (args : List (NameField × Word)) : ∀ k,
    args.map (fun p => p.1.index.toNat) = List.range' k args.length →
    (firstOffender args).map (fun f => f.index.toNat) =
      (args.findIdx? fun p => decide (p.1.limit < p.2)).map (· + k) := by
  induction args with
  | nil => intro k _; rfl
  | cons p ps ih =>
    intro k hk
    rw [List.map_cons, List.length_cons, List.range'_succ, List.cons.injEq] at hk
    obtain ⟨hp, hps⟩ := hk
    have htail := ih (k + 1) hps
    rw [firstOffender] at htail ⊢
    by_cases hlt : p.1.limit < p.2
    · simp [List.findIdx?_cons, hlt, hp]
    · simpa [List.findIdx?_cons, hlt, Function.comp_def, Nat.add_assoc, Nat.add_comm 1] using htail

/-! The packed sum -/

/-- The values at the weights of their fields. -/
def fieldSum (args : List (NameField × Word)) : Nat := (args.map fun p => p.2.toNat * 2 ^ p.1.offset).sum

@[simp] theorem fieldSum_nil : fieldSum [] = 0 := rfl

/-- Rewritten, not `rfl`: by `rfl` the kernel would unfold products with weights as large as 2^63. -/
@[simp] theorem fieldSum_cons (p : NameField × Word) (ps : List (NameField × Word)) :
    fieldSum (p :: ps) = p.2.toNat * 2 ^ p.1.offset + fieldSum ps := by
  rw [fieldSum, List.map_cons, List.sum_cons, fieldSum]

theorem pow_dvd_fieldSum {m : Nat} {args : List (NameField × Word)} (h : ∀ p ∈ args, m ≤ p.1.offset) :
    2 ^ m ∣ fieldSum args := by
  refine List.dvd_sum fun x hx => ?_
  obtain ⟨p, hp, rfl⟩ := List.mem_map.1 hx
  exact Dvd.dvd.mul_left (pow_dvd_pow 2 (h p hp)) _

/-- Values that fit in fields that lie one above the other are packed without carry: `or` is addition. -/
theorem packName_toNat (args : List (NameField × Word)) (hfits : ∀ p ∈ args, p.2 ≤ p.1.limit)
    (hplaces : (args.map Prod.fst).Pairwise fun f g => f.offset + f.width ≤ g.offset) :
    (packName args).toNat = fieldSum args := by
  induction args with
  | nil => rfl
  | cons p ps ih =>
    rw [List.forall_mem_cons] at hfits
    obtain ⟨hp, hps⟩ := hfits
    rw [List.map_cons, List.pairwise_cons] at hplaces
    obtain ⟨habove, hplaces⟩ := hplaces
    obtain ⟨c, hc⟩ := pow_dvd_fieldSum (args := ps) fun q hq => habove q.1 (List.mem_map_of_mem hq)
    have hpack : packName (p :: ps) = p.1.put p.2 ||| packName ps := rfl
    rw [hpack, BitVec.toNat_or, NameField.put_toNat hp, ih hps hplaces, fieldSum_cons, hc, Nat.or_comm,
      Nat.mul_comm _ c, ← Nat.shiftLeft_eq c, ← Nat.shiftLeft_add_eq_or_of_lt (NameField.weighted_lt hp), Nat.add_comm]

/-! NAME.NEW -/

section
variable (s : State) (f0 : BitVec 32) (f1 : BitVec 16) (f2 f3 f4 f5 f6 f7 f8 : Byte)

theorem exec_nameNew : exec (.nameNew f0 f1 f2 f3 f4 f5 f6 f7 f8) s =
    s.answer (nameResponse (nameArguments f0 f1 f2 f3 f4 f5 f6 f7 f8)) := rfl

/-- The statement's list of values and limits is the model's argument list, value by value (R76). -/
theorem nameArguments_limits : (nameArguments f0 f1 f2 f3 f4 f5 f6 f7 f8).map (fun p => (p.2.toNat, p.1.limit.toNat)) =
    [(f0.toNat, 0x1FFFFF), (f1.toNat, 0x7FF), (f2.toNat, 7), (f3.toNat, 31), (f4.toNat, 255), (f5.toNat, 127),
      (f6.toNat, 15), (f7.toNat, 7), (f8.toNat, 1)] := by
  simp [nameArguments, NameField.width, NameField.place, BitVec.toNat_setWidth_of_le, -BitVec.toNat_setWidth]

theorem nameArguments_fieldSum : fieldSum (nameArguments f0 f1 f2 f3 f4 f5 f6 f7 f8) =
    f0.toNat + f1.toNat * 2 ^ 21 + f2.toNat * 2 ^ 32 + f3.toNat * 2 ^ 35 + f4.toNat * 2 ^ 40 + f5.toNat * 2 ^ 49 +
      f6.toNat * 2 ^ 56 + f7.toNat * 2 ^ 60 + f8.toNat * 2 ^ 63 := by
  simp [nameArguments, NameField.offset, NameField.place, BitVec.toNat_setWidth_of_le,
    -BitVec.toNat_setWidth, Nat.add_assoc]

theorem nameArguments_places : ((nameArguments f0 f1 f2 f3 f4 f5 f6 f7 f8).map Prod.fst).Pairwise
    fun f g => f.offset + f.width ≤ g.offset := by
  change [NameField.identity, .manufacturerCode, .ecuInstance, .functionInstance, .function, .vehicleSystem,
    .vehicleSystemInstance, .industryGroup, .arbitraryAddressCapable].Pairwise _
  decide

theorem nameArguments_offenderIndex :
    (firstOffender (nameArguments f0 f1 f2 f3 f4 f5 f6 f7 f8)).map (fun f => f.index.toNat) =
      [(f0.toNat, 0x1FFFFF), (f1.toNat, 0x7FF), (f2.toNat, 7), (f3.toNat, 31), (f4.toNat, 255), (f5.toNat, 127),
        (f6.toNat, 15), (f7.toNat, 7), (f8.toNat, 1)].findIdx? (fun p => p.2 < p.1) := by
  rw [firstOffender_index _ 0 rfl, ← nameArguments_limits, List.findIdx?_map]
  simp [Function.comp_def, BitVec.lt_def]

/-- The nine values that fit their fields (R76). -/
theorem nameArguments_fit_iff : (∀ p ∈ nameArguments f0 f1 f2 f3 f4 f5 f6 f7 f8, p.2 ≤ p.1.limit) ↔
    f0.toNat < 2 ^ 21 ∧ f1.toNat < 2 ^ 11 ∧ f2.toNat < 2 ^ 3 ∧ f3.toNat < 2 ^ 5 ∧ f4.toNat < 2 ^ 8 ∧
      f5.toNat < 2 ^ 7 ∧ f6.toNat < 2 ^ 4 ∧ f7.toNat < 2 ^ 3 ∧ f8.toNat < 2 ^ 1 := by
  simp [nameArguments, NameField.le_limit_iff, NameField.width, NameField.place, BitVec.toNat_setWidth_of_le,
    -BitVec.toNat_setWidth]

/-- NAME.NEW completes with `OK` exactly when every value fits, and then with the sum (R80). -/
theorem completes_nameNew_iff {n : Nat} : Completes (.nameNew f0 f1 f2 f3 f4 f5 f6 f7 f8) s 0 0 n ↔
    (∀ p ∈ nameArguments f0 f1 f2 f3 f4 f5 f6 f7 f8, p.2 ≤ p.1.limit) ∧
      fieldSum (nameArguments f0 f1 f2 f3 f4 f5 f6 f7 f8) = n := by
  rw [completes_iff_of_answer (exec_nameNew s f0 f1 f2 f3 f4 f5 f6 f7 f8), ← firstOffender_eq_none_iff]
  cases h : firstOffender (nameArguments f0 f1 f2 f3 f4 f5 f6 f7 f8) with
  | some f => simp [nameResponse_of_offender h, Status.code]
  | none =>
    have hpack := packName_toNat _ (firstOffender_eq_none_iff.1 h) (nameArguments_places f0 f1 f2 f3 f4 f5 f6 f7 f8)
    simp [nameResponse_of_fits h, Status.code, hpack]

end

/-- Settles O26: the statement's list is the argument list, and values that fit are packed without carry. -/
theorem nameNewPacksOrReportsFirst : Obligations.NameNewPacksOrReportsFirst := by
  intro s f0 f1 f2 f3 f4 f5 f6 f7 f8
  rw [← nameArguments_offenderIndex]
  cases h : firstOffender (nameArguments f0 f1 f2 f3 f4 f5 f6 f7 f8) with
  | some f =>
    have hexec := exec_nameNew s f0 f1 f2 f3 f4 f5 f6 f7 f8
    rw [nameResponse_of_offender h] at hexec
    exact completes_of_answer hexec
  | none =>
    exact (completes_nameNew_iff ..).2 ⟨firstOffender_eq_none_iff.1 h, nameArguments_fieldSum ..⟩

/-- What a host reads in `r` is a 64-bit word (R46). -/
theorem r_lt_of_completes {i : Instr} {s : State} {status info r : Nat} (h : Completes i s status info r) :
    r < 2 ^ 64 := by
  obtain ⟨t, -, -, -, -, -, rfl⟩ := h
  exact Nat.mod_lt _ (by decide)

/-- The fields of a constructed Name are its arguments: they are the digits of the packed sum (R77). -/
theorem fields_of_completes_nameNew {s : State} {f0 : BitVec 32} {f1 : BitVec 16} {f2 f3 f4 f5 f6 f7 f8 : Byte}
    {n : Nat} (h : Completes (.nameNew f0 f1 f2 f3 f4 f5 f6 f7 f8) s 0 0 n) :
    n % 2 ^ 21 = f0.toNat ∧ n / 2 ^ 21 % 2 ^ 11 = f1.toNat ∧ n / 2 ^ 32 % 2 ^ 3 = f2.toNat ∧
      n / 2 ^ 35 % 2 ^ 5 = f3.toNat ∧ n / 2 ^ 40 % 2 ^ 8 = f4.toNat ∧ n / 2 ^ 49 % 2 ^ 7 = f5.toNat ∧
      n / 2 ^ 56 % 2 ^ 4 = f6.toNat ∧ n / 2 ^ 60 % 8 = f7.toNat ∧ n / 2 ^ 63 = f8.toNat := by
  rw [completes_nameNew_iff, nameArguments_fit_iff, nameArguments_fieldSum] at h
  obtain ⟨⟨h0, h1, h2, h3, h4, h5, h6, h7, h8⟩, rfl⟩ := h
  refine ⟨?_, ?_, ?_, ?_, ?_, ?_, ?_, ?_, ?_⟩ <;> omega

/-- Settles O30: an accessor answers one digit of the Name, and a Name without bit 48 is the sum of its nine digits. -/
theorem nameRoundTrip : Obligations.NameRoundTrip := by
  intro s
  constructor
  · intro f0 f1 f2 f3 f4 f5 f6 f7 f8 n h
    have hn : (BitVec.ofNat 64 n).toNat = n :=
      (BitVec.toNat_ofNat n 64).trans (Nat.mod_eq_of_lt (r_lt_of_completes h))
    have hplain := nameAccessorsReadTheirField s (BitVec.ofNat 64 n)
    have hgroup := nameIndustryGroup s (BitVec.ofNat 64 n)
    obtain ⟨d0, d1, d2, d3, d4, d5, d6, d7, d8⟩ := fields_of_completes_nameNew h
    rw [hn, d0, d1, d2, d3, d4, d5, d6, d8] at hplain
    rw [hn, d7] at hgroup
    obtain ⟨hident, hmfr, hecui, hfni, hfn, hvs, hvsi, haac⟩ := hplain
    obtain ⟨hnamed, hreserved⟩ := hgroup
    exact ⟨hident, hmfr, hecui, hfni, hfn, hvs, hvsi, haac, fun h => hnamed (Nat.lt_succ_of_le h), hreserved⟩
  · intro n h48
    obtain ⟨hident, hmfr, hecui, hfni, hfn, hvs, hvsi, haac⟩ := nameAccessorsReadTheirField s n
    refine ⟨_, _, _, _, _, _, _, _, hident, hmfr, hecui, hfni, hfn, hvs, hvsi, haac, ?_⟩
    have hlt := n.isLt
    rw [completes_nameNew_iff, nameArguments_fit_iff, nameArguments_fieldSum]
    simp only [BitVec.toNat_ofNat]
    omega

end Sys2Proof.Machine
end

section
/-! PROOFS. The Signal unit's classifier (spec/43_signal.md rules R94 to R103): the four predicates of the selected row,
one at a time or as four bits. -/

namespace Sys2Proof.Machine

open Claim

/-- The statements' table of rows and the decoder of width codes are the same table (R36, R94). -/
theorem rangeRow_eq_map_row (t : RangeTable) (sel : Byte) :
    rangeRow t sel.toNat = (sigWidth? sel).map fun W => (W.bits, t.row W) := by
  unfold rangeRow sigWidth?
  split
  case h_10 => simp_all; omega
  all_goals simp_all [SigWidth.bits, RangeTable.row]

theorem exists_sigWidth_of_rangeRow {t : RangeTable} {sel : Byte} {W : Nat} {c : CutPoints}
    (h : rangeRow t sel.toNat = some (W, c)) : ∃ w, sigWidth? sel = some w ∧ w.bits = W ∧ t.row w = c := by
  rw [rangeRow_eq_map_row, Option.map_eq_some_iff] at h
  simpa only [Prod.mk.injEq] using h

/-- Every width code up to 8 selects a width (R94). -/
theorem exists_sigWidth {sel : Byte} (h : sel.toNat ≤ 8) : ∃ w, sigWidth? sel = some w := by
  unfold sigWidth?
  generalize sel.toNat = code at h
  interval_cases code <;> exact ⟨_, rfl⟩

@[simp] theorem boolWord_toNat (b : Bool) : (boolWord b).toNat = b.toNat := by cases b <;> rfl

theorem inClass_valid_toNat (c : CutPoints) (v : Nat) :
    (inClass c v .valid).toNat = if v ≤ c.vmax.toNat then 1 else 0 := by
  simp [inClass, Bool.toNat, Bool.cond_decide]

theorem inClass_specific_toNat (c : CutPoints) (v : Nat) :
    (inClass c v .specific).toNat = if c.vmax.toNat < v ∧ v ≤ c.smax.toNat then 1 else 0 := by
  simp [inClass, Bool.toNat, Bool.cond_eq_ite]

theorem inClass_error_toNat (c : CutPoints) (v : Nat) :
    (inClass c v .error).toNat = if c.smax.toNat < v ∧ v ≤ c.emax.toNat then 1 else 0 := by
  simp [inClass, Bool.toNat, Bool.cond_eq_ite]

theorem inClass_notAvailable_toNat (c : CutPoints) (v : Nat) :
    (inClass c v .notAvailable).toNat = if c.emax.toNat < v then 1 else 0 := by
  simp [inClass, Bool.toNat, Bool.cond_decide]

/-- A bit appended below a word is its lowest digit in base 2. -/
theorem toNat_append_ofBool {n : Nat} (x : BitVec n) (b : Bool) :
    (x ++ BitVec.ofBool b).toNat = x.toNat * 2 + b.toNat := by
  rw [BitVec.toNat_append, ← Nat.shiftLeft_add_eq_or_of_lt (BitVec.ofBool b).isLt, Nat.shiftLeft_eq,
    BitVec.toNat_ofBool, pow_one]

/-- Bit `i` of SIG.CLASS is the `i`-th predicate (R103). -/
theorem classWord_toNat (c : CutPoints) (v : Nat) : (classWord c v).toNat =
    (inClass c v .valid).toNat + 2 * (inClass c v .specific).toNat + 4 * (inClass c v .error).toNat +
      8 * (inClass c v .notAvailable).toNat := by
  rw [classWord, toNat_append_ofBool, toNat_append_ofBool, toNat_append_ofBool, BitVec.toNat_ofBool]
  ring

section
variable {s : State} {sel : Byte} {w : SigWidth} (hw : sigWidth? sel = some w) (value : BitVec 32)
include hw

/-- A predicate operation completes with `OK` and the Boolean of its class (R99 to R102). -/
theorem completes_of_answerClass {i : Instr} {k : SignalClass} (h : exec i s = answerClass k sel value s) :
    Completes i s 0 0 (inClass (s.cfg.ranges.row w) (value.toNat % 2 ^ w.bits) k).toNat := by
  rw [answerClass, withSignal_of_width hw] at h
  exact (completes_iff_of_answer h).2 ⟨rfl, rfl, by simp⟩

/-- SIG.CLASS completes with `OK` and the four bits of `classWord` (R103). -/
theorem completes_sigClass : Completes (.sigClass sel value) s 0 0
    (classWord (s.cfg.ranges.row w) (value.toNat % 2 ^ w.bits)).toNat := by
  have h : exec (.sigClass sel value) s =
      s.answer (withSignal s.cfg sel value fun c v => respond (classWord c v)) := rfl
  rw [withSignal_of_width hw] at h
  refine (completes_iff_of_answer h).2 ⟨rfl, rfl, ?_⟩
  rw [respond_r, BitVec.toNat_setWidth_of_le (by decide)]

end

/-- Settles O32: each predicate answers its class of the row that the width code selects. -/
theorem signalPredicates : Obligations.SignalPredicates := by
  intro s sel value W c hrow
  obtain ⟨w, hw, rfl, rfl⟩ := exists_sigWidth_of_rangeRow hrow
  simp only [← inClass_valid_toNat, ← inClass_specific_toNat, ← inClass_error_toNat, ← inClass_notAvailable_toNat]
  exact ⟨completes_of_answerClass hw value rfl, completes_of_answerClass hw value rfl,
    completes_of_answerClass hw value rfl, completes_of_answerClass hw value rfl⟩

/-- Settles O33: the four Booleans at the weights of their bits. -/
theorem signalClassPacksPredicates : Obligations.SignalClassPacksPredicates := by
  intro s sel value W c hrow
  obtain ⟨w, hw, rfl, rfl⟩ := exists_sigWidth_of_rangeRow hrow
  simpa only [classWord_toNat, inClass_valid_toNat, inClass_specific_toNat, inClass_error_toNat,
    inClass_notAvailable_toNat, mul_ite, mul_one, mul_zero] using completes_sigClass (s := s) hw value

/-- Every row of a configuration of CORE has its cut points in R96's order. -/
theorem cutPoints_ordered_of_cfg_wf {c : Cfg} (hc : c.wf = true) (w : SigWidth) :
    (c.ranges.row w).vmax.toNat < (c.ranges.row w).smax.toNat ∧
      (c.ranges.row w).smax.toNat < (c.ranges.row w).emax.toNat ∧
      (c.ranges.row w).emax.toNat < 2 ^ w.bits - 1 := by
  simp only [Cfg.wf, RangeTable.wf, Bool.and_eq_true] at hc
  obtain ⟨⟨⟨⟨⟨⟨hrows, -⟩, -⟩, -⟩, -⟩, -⟩, -⟩ := hc
  have hrow : (c.ranges.row w).wf w = true := List.all_eq_true.1 hrows w (by cases w <;> decide)
  simpa [CutPoints.wf, and_assoc] using hrow

/-- Cut points in order divide the values into four classes: the value lies below or above each of the three. -/
theorem inClass_sum_eq_one {c : CutPoints} (hlow : c.vmax.toNat < c.smax.toNat) (hhigh : c.smax.toNat < c.emax.toNat)
    (v : Nat) : (inClass c v .valid).toNat + (inClass c v .specific).toNat + (inClass c v .error).toNat +
      (inClass c v .notAvailable).toNat = 1 := by
  rw [inClass_valid_toNat, inClass_specific_toNat, inClass_error_toNat, inClass_notAvailable_toNat]
  split_ifs <;> omega

/-- Settles O34: the operations answer the four classes of one row, whose cut points are in order. -/
theorem signalClassesAreExclusive : Obligations.SignalClassesAreExclusive := by
  intro s sel value hs hsel
  obtain ⟨w, hw⟩ := exists_sigWidth hsel
  obtain ⟨hlow, hhigh, -⟩ := cutPoints_ordered_of_cfg_wf hs w
  have hclass := completes_sigClass (s := s) hw value
  rw [classWord_toNat] at hclass
  exact ⟨_, _, _, _, completes_of_answerClass hw value rfl, completes_of_answerClass hw value rfl,
    completes_of_answerClass hw value rfl, completes_of_answerClass hw value rfl,
    inClass_sum_eq_one hlow hhigh _, hclass⟩

/-- The two cut points that R97 fixes. -/
theorem eightBitRow_of_cfg_wf {c : Cfg} (hc : c.wf = true) :
    c.ranges.w8.vmax = 0xFA#32 ∧ c.ranges.w8.emax = 0xFE#32 := by
  simp only [Cfg.wf, RangeTable.wf, Bool.and_eq_true, beq_iff_eq] at hc
  obtain ⟨⟨⟨⟨⟨⟨-, hvmax⟩, hemax⟩, -⟩, -⟩, -⟩, -⟩ := hc
  exact ⟨hvmax, hemax⟩

/-- Settles O35: `SMAX` lies between the two fixed cut points, and no point depends on where. -/
theorem eightBitPoints : Obligations.EightBitPoints := by
  intro s hs
  obtain ⟨hlow, hhigh, -⟩ := cutPoints_ordered_of_cfg_wf hs .w8
  obtain ⟨hvmax, hemax⟩ := eightBitRow_of_cfg_wf hs
  have hclass (value : BitVec 32) := signalClassPacksPredicates s 1 value 8 s.cfg.ranges.w8 rfl
  simp only [RangeTable.row, hvmax, hemax, BitVec.toNat_ofNat, Nat.reducePow, Nat.reduceMod] at hlow hhigh hclass ⊢
  have hspec : 0xFB ≤ s.cfg.ranges.w8.smax.toNat := hlow
  refine ⟨trivial, trivial, hspec, Nat.le_of_lt_succ hhigh, ?_, ?_, ?_, ?_, ?_⟩
  · simpa using hclass 0x00
  · simpa [(Nat.le_of_succ_le hspec).not_gt] using hclass 0xFA
  · simpa [hspec, hspec.not_gt] using hclass 0xFB
  · simpa [hhigh, hhigh.not_ge] using hclass 0xFE
  · simpa [(Nat.lt_succ_of_lt hhigh).not_ge] using hclass 0xFF

end Sys2Proof.Machine
end

section
/-! PROOFS. The Parameter and Command conversions (spec/43_signal.md rules R104 to R113): a code of a variant is its
tag, and every other code has one refusal. -/

namespace Sys2Proof.Machine

/-- What a conversion answers: the tag of the variant, or `refusal` when there is none (R107, R108, R110, R111). -/
def tagResponse {α : Type} (variant? : Option α) (tag : α → BitVec 2) (refusal : Response) : Response :=
  variant?.elim refusal fun v => respond (tag v)

section
variable {α : Type} {i : Instr} {s : State} {variant? : Option α} {tag : α → BitVec 2}

/-- A conversion of a variant's code completes with `OK` and the code, which is the variant's tag. -/
theorem completes_of_variant {refusal : Response} (h : exec i s = s.answer (tagResponse variant? tag refusal))
    {code : Nat} (hcode : ∃ v, variant? = some v ∧ (tag v).toNat = code) : Completes i s 0 0 code := by
  obtain ⟨v, rfl, rfl⟩ := hcode
  refine (completes_iff_of_answer (p := respond (tag v)) h).2 ⟨rfl, rfl, ?_⟩
  rw [respond_r, BitVec.toNat_setWidth_of_le (by decide)]

/-- A conversion of any other code completes with its refusal, and `r` is 0 (R52). -/
theorem completes_of_noVariant {e : Status} {info : Byte}
    (h : exec i s = s.answer (tagResponse variant? tag (absentResult e info))) (hnone : variant? = none) :
    Completes i s e.code.toNat info.toNat 0 := by
  subst hnone
  exact completes_of_answer h

end

theorem exec_parDec (c : Byte) (s : State) : exec (.parDec c) s =
    s.answer (tagResponse (Parameter.ofCode? c) Parameter.tag (absentResult .unrecognizedCode c)) := by
  change execParDec c s = _
  rw [execParDec]
  cases Parameter.ofCode? c <;> rfl

theorem exec_parEnc (t : Byte) (s : State) : exec (.parEnc t) s =
    s.answer (tagResponse (Parameter.ofCode? t) Parameter.tag (absentResult .illegalRequest infoNoVariant)) := by
  change execParEnc t s = _
  rw [execParEnc]
  cases Parameter.ofCode? t <;> rfl

theorem exec_cmdDec (c : Byte) (s : State) : exec (.cmdDec c) s =
    s.answer (tagResponse (Command.ofCode? c) Command.tag (absentResult .unrecognizedCode c)) := by
  change execCmdDec c s = _
  rw [execCmdDec]
  cases Command.ofCode? c <;> rfl

theorem exec_cmdEnc (t : Byte) (s : State) : exec (.cmdEnc t) s =
    s.answer (tagResponse (Command.ofCode? t) Command.tag (absentResult .illegalRequest infoNoVariant)) := by
  change execCmdEnc t s = _
  rw [execCmdEnc]
  cases Command.ofCode? t <;> rfl

/-- The codes 0 to 3 are the tags of the Parameters (R104). -/
theorem Parameter.exists_ofCode? {c : Byte} (h : c.toNat ≤ 3) : ∃ p, ofCode? c = some p ∧ p.tag.toNat = c.toNat := by
  unfold ofCode?
  generalize c.toNat = code at h
  interval_cases code <;> exact ⟨_, rfl, rfl⟩

theorem Parameter.ofCode?_eq_none {c : Byte} (h : 3 < c.toNat) : ofCode? c = none := by
  unfold ofCode?
  split
  case h_5 => rfl
  all_goals omega

/-- The codes 0, 1 and 3 are the tags of the Commands (R105). -/
theorem Command.exists_ofCode? {c : Byte} (h : c.toNat = 0 ∨ c.toNat = 1 ∨ c.toNat = 3) :
    ∃ k, ofCode? c = some k ∧ k.tag.toNat = c.toNat := by
  unfold ofCode?
  rcases h with h | h | h <;> rw [h] <;> exact ⟨_, rfl, rfl⟩

theorem Command.ofCode?_eq_none {c : Byte} (h : c.toNat = 2 ∨ 3 < c.toNat) : ofCode? c = none := by
  unfold ofCode?
  split
  case h_4 => rfl
  all_goals omega

/-- Settles O36: both conversions look the code up in R104's table. -/
theorem parameterCodes : Obligations.ParameterCodes := by
  intro s c
  refine ⟨fun hc => ?_, fun hc => ?_⟩
  · have hvariant := Parameter.exists_ofCode? hc
    exact ⟨completes_of_variant (exec_parDec c s) hvariant, completes_of_variant (exec_parEnc c s) hvariant⟩
  · have hnone := Parameter.ofCode?_eq_none hc
    exact ⟨completes_of_noVariant (exec_parDec c s) hnone, completes_of_noVariant (exec_parEnc c s) hnone⟩

/-- Settles O37: both conversions look the code up in R105's table, which has no row for 2. -/
theorem commandCodes : Obligations.CommandCodes := by
  intro s c
  refine ⟨fun hc => ?_, fun hc => ?_⟩
  · have hvariant := Command.exists_ofCode? hc
    exact ⟨completes_of_variant (exec_cmdDec c s) hvariant, completes_of_variant (exec_cmdEnc c s) hvariant⟩
  · have hnone := Command.ofCode?_eq_none hc
    exact ⟨completes_of_noVariant (exec_cmdDec c s) hnone, completes_of_noVariant (exec_cmdEnc c s) hnone⟩

/-- Settles O38: the defaults are the variants of the all-ones code (R113). -/
theorem defaultsAreAllOnes : Obligations.DefaultsAreAllOnes := fun _ =>
  ⟨completes_of_answer (p := respond Parameter.notAvailable.tag) rfl,
    completes_of_answer (p := respond Command.noAction.tag) rfl⟩

end Sys2Proof.Machine
end

section
/-! PROOFS. The whole part of a value and its order (spec/44_slot.md rule R125; the reading of a pattern is
notes/assumptions/9.md's). -/

namespace Sys2Proof.Machine.F64

theorem unitsPerOne_cast : (unitsPerOne : Int) = 2 ^ 1074 := by
  rw [unitsPerOne_eq, Nat.cast_pow, Nat.cast_ofNat]

/-- A value that is not negative is its absolute value, whatever its sign bit: that of `-0.0` is set. -/
theorem toUnits_of_nonneg {x : F64} (h : 0 ≤ toUnits x) : toUnits x = units x := by
  unfold toUnits at h ⊢
  split_ifs at h ⊢ <;> omega

theorem msb_of_toUnits_neg {x : F64} (h : toUnits x < 0) : x.msb = true := by
  unfold toUnits at h
  split at h
  · assumption
  · omega

/-- The whole part of a value that is not negative is its floor. -/
theorem wholePart_bounds {x : F64} (h : 0 ≤ toUnits x) :
    (wholePart x : Int) * 2 ^ 1074 ≤ toUnits x ∧ toUnits x < ((wholePart x : Int) + 1) * 2 ^ 1074 := by
  have hlow : wholePart x * unitsPerOne ≤ units x := Nat.div_mul_le_self _ _
  have hhigh : units x < (wholePart x + 1) * unitsPerOne :=
    Nat.lt_mul_of_div_lt (Nat.lt_succ_self _) (by decide)
  rw [toUnits_of_nonneg h, ← unitsPerOne_cast]
  exact ⟨mod_cast hlow, mod_cast hhigh⟩

end Sys2Proof.Machine.F64
end

section
/-! PROOFS. The Slot unit (spec/44_slot.md rules R122 to R130): an operation answers a value of its slot definition,
and three of them ask first whether it is in bounds. -/

namespace Sys2Proof.Machine

theorem inBounds_iff {d : SlotDef} {v : F64} :
    inBounds d v = true ↔ F64.fle d.min v = true ∧ F64.fle v d.max = true := by
  rw [inBounds, Bool.and_eq_true]

/-- An operation that responds with a value no wider than `r` completes with `OK` and that value (R46, R51). -/
theorem completes_of_respond {i : Instr} {s : State} {n : Nat} {x : BitVec n} (h : exec i s = s.answer (respond x))
    (hn : n ≤ 64) : Completes i s 0 0 x.toNat := by
  refine (completes_iff_of_answer h).2 ⟨rfl, rfl, ?_⟩
  rw [respond_r, BitVec.toNat_setWidth_of_le hn]

theorem completes_of_outOfBounds {i : Instr} {s : State} (h : exec i s = s.answer outOfBounds) :
    Completes i s 5 0 0 := completes_of_answer h

section
variable {s : State} {sel : Byte} {d : SlotDef} (hd : s.cfg.slots[sel.toNat]? = some d)
include hd

/-- An operation that responds with a constant of its slot completes with `OK` and the constant's 64 bits. -/
theorem completes_of_constant {i : Instr} (k : SlotDef → Word)
    (h : exec i s = s.answer (withSlot s.cfg sel fun d => respond (k d))) : Completes i s 0 0 (k d).toNat := by
  rw [withSlot_of_entry hd] at h
  exact completes_of_respond h le_rfl

/-- An operation that responds with a value in bounds of its slot, and refuses any other, completes as R122's test
says. -/
theorem completes_of_boundsTest {i : Instr} (k : SlotDef → F64) (h : exec i s = s.answer
      (withSlot s.cfg sel fun d => if inBounds d (k d) then respond (k d) else outOfBounds)) :
    (F64.fle d.min (k d) ∧ F64.fle (k d) d.max → Completes i s 0 0 (k d).toNat) ∧
      (¬ (F64.fle d.min (k d) ∧ F64.fle (k d) d.max) → Completes i s 5 0 0) := by
  rw [withSlot_of_entry hd] at h
  rw [← inBounds_iff]
  refine ⟨fun hin => ?_, fun hout => ?_⟩
  · rw [if_pos hin] at h
    exact completes_of_respond h le_rfl
  · rw [if_neg hout] at h
    exact completes_of_outOfBounds h

theorem exec_slotAsRaw_of_inBounds {v : F64} (hv : inBounds d v = true) {raw : BitVec 32}
    (hraw : rawOf? d v = some raw) : exec (.slotAsRaw sel v) s = s.answer (respond raw) := by
  change execSlotAsRaw sel v s = _
  simp only [execSlotAsRaw, hd, hv, hraw, if_true]

theorem exec_slotAsRaw_of_not_inBounds {v : F64} (hv : ¬ inBounds d v = true) :
    exec (.slotAsRaw sel v) s = s.answer outOfBounds := by
  change execSlotAsRaw sel v s = _
  simp only [execSlotAsRaw, hd, if_neg hv]

end

/-- The quotient of a value in bounds of a well-formed slot is finite, and its whole part is a `u32`, 0 below zero
(R119 d). -/
theorem quotient_of_inBounds {d : SlotDef} {v : F64} (hd : d.wf = true) (hv : inBounds d v = true) :
    F64.isFinite (d.quotient v) = true ∧ F64.wholePart (d.quotient v) < 2 ^ 32 ∧
      (F64.toUnits (d.quotient v) < 0 → F64.wholePart (d.quotient v) = 0) := by
  have henc := encodable_of_inBounds hd hv
  rw [SlotDef.encodable, Bool.and_eq_true] at henc
  obtain ⟨hlow, hhigh⟩ := henc
  obtain ⟨hlt, hneg⟩ := F64.wholePart_of_between hlow hhigh
  exact ⟨isFinite_of_between (by decide) (by decide) (F64.fle_of_flt hlow) (F64.fle_of_flt hhigh), hlt,
    fun h => hneg (F64.msb_of_toUnits_neg h)⟩

/-- Settles O41: by R119 (d) the quotient lies between -1 and 2^32, where the answer is its whole part. -/
theorem slotAsRawTruncates : Obligations.SlotAsRawTruncates := by
  intro s sel v d hs hd
  change (_ → ∃ n < 2 ^ 32, _ ∧ F64.isFinite (d.quotient v) ∧ _) ∧ _
  rw [← inBounds_iff]
  refine ⟨fun hin => ?_, fun hout => completes_of_outOfBounds (exec_slotAsRaw_of_not_inBounds hd hout)⟩
  have hwf := slot_wf_of_cfg_wf hs hd
  obtain ⟨hfin, hlt, hneg⟩ := quotient_of_inBounds hwf hin
  have hanswer := completes_of_respond (exec_slotAsRaw_of_inBounds hd hin (rawOf?_of_inBounds hwf hin)) (by decide)
  rw [BitVec.toNat_ofNat, Nat.mod_eq_of_lt hlt] at hanswer
  exact ⟨_, hlt, hanswer, hfin, F64.wholePart_bounds, hneg⟩

/-- Settles O39: the value tested is the operand. -/
theorem slotNewChecksBounds : Obligations.SlotNewChecksBounds := fun _ _ v _ hd =>
  completes_of_boundsTest hd (fun _ => v) rfl

/-- Settles O40: the value tested is the physical value of the raw integer. -/
theorem slotFromRawScales : Obligations.SlotFromRawScales := fun _ _ raw _ hd =>
  completes_of_boundsTest hd (fun d => physical d raw) rfl

/-- Settles O42: each operation responds with a field of the slot definition. -/
theorem slotConstants : Obligations.SlotConstants := fun _ _ _ hd =>
  ⟨completes_of_constant hd SlotDef.scale rfl, completes_of_constant hd SlotDef.offset rfl,
    completes_of_constant hd SlotDef.min rfl, completes_of_constant hd SlotDef.max rfl,
    completes_of_constant hd SlotDef.unit rfl⟩

end Sys2Proof.Machine
end

section
/-! PROOFS. The table of causes (spec/60_exceptions.md rule R139): the `status` and `info` of an operand form's response,
one lemma for each form, and with them those of every operation. -/

namespace Sys2Proof.Machine

open Claim

/-- The two fields of a response that R139 tables: the status code and the info. -/
def Response.cause (p : Response) : Nat × Nat := (p.status.code.toNat, p.info.toNat)

@[simp] theorem Response.cause_respond {n : Nat} (v : BitVec n) : (respond v).cause = (0, 0) := rfl
@[simp] theorem Response.cause_absentResult (e : Status) (info : Byte) :
    (absentResult e info).cause = (e.code.toNat, info.toNat) := rfl
@[simp] theorem Response.cause_absent : absent.cause = (1, 0) := rfl
@[simp] theorem Response.cause_illegalSel : illegalSel.cause = (6, 1) := rfl
@[simp] theorem Response.cause_outOfBounds : outOfBounds.cause = (5, 0) := rfl

/-- What a host reads of the cause on the response port. -/
theorem State.Answered.cause_eq {s t : State} {status info r : Nat} (h : s.Answered t status info r) :
    (rspStatus t.rsp, rspInfo t.rsp) = (status, info) := by
  obtain ⟨-, -, hstatus, hinfo, -⟩ := h
  rw [hstatus, hinfo]

/-! The operand forms -/

theorem tag_cases (sel : Byte) : sel = 0 ∨ sel = 1 ∨ 1 < sel.toNat := by bv_omega

/-- An operation that responds for both variants of identifier fails for a reserved tag alone (R64). -/
theorem withIdentifier_cause {k : Identifier → Response} (hk : ∀ x, (k x).cause = (0, 0)) (sel : Byte)
    (raw : BitVec 29) : (withIdentifier sel raw k).cause = if sel.toNat ≤ 1 then (0, 0) else (6, 1) := by
  rcases tag_cases sel with rfl | rfl | hsel
  · exact hk _
  · exact hk _
  · rw [withIdentifier_illegal hsel, if_neg (by omega), Response.cause_illegalSel]

/-- An Extended-only operation is `ABSENT` for a Standard identifier, and an Extended one has a cause of its own
(R65). -/
theorem withExtended_cause {raw : BitVec 29} {k : BitVec 29 → Response} {c : Nat × Nat} (hk : (k raw).cause = c)
    (sel : Byte) :
    (withExtended sel raw k).cause = if sel = 0 then (1, 0) else if sel = 1 then c else (6, 1) := by
  rcases tag_cases sel with rfl | rfl | hsel
  · rfl
  · exact hk
  · rw [withExtended_illegal hsel, if_neg (by bv_omega), if_neg (by bv_omega), Response.cause_illegalSel]

/-- The test of the PDU format in ID.DA and ID.GE (R70, R71); the table writes the cause of the failure. -/
theorem respondOrAbsent_cause {p q : Prop} [Decidable p] [Decidable q] (h : p ↔ ¬ q) {n : Nat} (x : BitVec n) :
    (if p then respond x else absent).cause = if q then (1, 0) else (0, 0) := by
  by_cases hq : q
  · rw [if_neg (by rwa [h, not_not]), if_pos hq, Response.cause_absent]
  · rw [if_pos (h.2 hq), if_neg hq, Response.cause_respond]

/-- A signal operation responds for every width code up to 8 (R94). -/
theorem withSignal_cause {k : CutPoints → Nat → Response} (hk : ∀ c v, (k c v).cause = (0, 0)) (cfg : Cfg)
    (sel : Byte) (value : BitVec 32) :
    (withSignal cfg sel value k).cause = if sel.toNat ≤ 8 then (0, 0) else (6, 1) := by
  split
  case isTrue hsel =>
    obtain ⟨w, hw⟩ := exists_sigWidth hsel
    rw [withSignal_of_width hw, hk]
  case isFalse hsel => rw [withSignal_illegal (by omega), Response.cause_illegalSel]

/-- A slot operation has its own cause for an entry of the slot table and fails for any other index (R117). -/
theorem withSlot_cause {cfg : Cfg} {sel : Byte} {k : SlotDef → Response} {ok : SlotDef → Bool}
    (hk : ∀ d, (k d).cause = if ok d then (0, 0) else (5, 0)) :
    (withSlot cfg sel k).cause = statusInfo.slotStatus cfg sel ok := by
  unfold withSlot statusInfo.slotStatus
  cases cfg.slots[sel.toNat]? with
  | none => rfl
  | some d => exact hk d

/-- The bounds test of SLOT.NEW and SLOT.FROMRAW (R122). -/
theorem boundsTest_cause {n : Nat} (b : Bool) (x : BitVec n) :
    (if b then respond x else outOfBounds).cause = if b then (0, 0) else (5, 0) := by
  cases b <;> rfl

/-- A conversion fails for the codes of no variant, with its refusal's cause (R107, R108, R110, R111). -/
theorem tagResponse_cause {α : Type} {variant? : Option α} {tag : α → BitVec 2} {code : Nat} {p : Prop} [Decidable p]
    (hnone : p → variant? = none) (hsome : ¬ p → ∃ v, variant? = some v ∧ (tag v).toNat = code)
    (refusal : Response) : (tagResponse variant? tag refusal).cause = if p then refusal.cause else (0, 0) := by
  split
  case isTrue hp =>
    rw [hnone hp]
    rfl
  case isFalse hp =>
    obtain ⟨v, rfl, -⟩ := hsome hp
    rfl

theorem Parameter.tagResponse_cause (c : Byte) (refusal : Response) :
    (tagResponse (ofCode? c) tag refusal).cause = if c.toNat > 3 then refusal.cause else (0, 0) :=
  Machine.tagResponse_cause ofCode?_eq_none (fun h => exists_ofCode? (not_lt.1 h)) refusal

theorem Command.tagResponse_cause (c : Byte) (refusal : Response) :
    (tagResponse (ofCode? c) tag refusal).cause = if c.toNat = 2 ∨ c.toNat > 3 then refusal.cause else (0, 0) :=
  Machine.tagResponse_cause ofCode?_eq_none (fun h => exists_ofCode? (by omega)) refusal

/-! The operations -/

/-- The operation answers, with the status and info that R139's table gives it. -/
def AnswersByCause (i : Instr) (s : State) : Prop := ∃ p, exec i s = s.answer p ∧ p.cause = statusInfo s.cfg i

theorem exec_slotAsRaw_of_no_u32 {s : State} {sel : Byte} {d : SlotDef} (hd : s.cfg.slots[sel.toNat]? = some d)
    {v : F64} (hv : inBounds d v = true) (hraw : rawOf? d v = none) :
    exec (.slotAsRaw sel v) s = .refused .illFormedConfiguration := by
  change execSlotAsRaw sel v s = _
  simp only [execSlotAsRaw, hd, hv, hraw, if_true]

section
variable (s : State)

/-- The first offender's place in the table's list is the field index that `OUT_OF_RANGE` reports (R80). -/
theorem nameNew_answersByCause (f0 : BitVec 32) (f1 : BitVec 16) (f2 f3 f4 f5 f6 f7 f8 : Byte) :
    AnswersByCause (.nameNew f0 f1 f2 f3 f4 f5 f6 f7 f8) s := by
  refine ⟨_, exec_nameNew s f0 f1 f2 f3 f4 f5 f6 f7 f8, ?_⟩
  rw [statusInfo, ← nameArguments_offenderIndex]
  cases h : firstOffender (nameArguments f0 f1 f2 f3 f4 f5 f6 f7 f8) with
  | some f =>
    rw [nameResponse_of_offender h]
    rfl
  | none =>
    rw [nameResponse_of_fits h]
    rfl

/-- The codes 6 and 7 of the 3-bit field name no industry group (R90). -/
theorem nameIg_answersByCause (n : Word) : AnswersByCause (.nameIg n) s := by
  have hcode : (NameField.industryGroup.get n).toNat = n.toNat / 2 ^ 60 % 8 := NameField.get_toNat _ n
  unfold AnswersByCause
  rw [statusInfo, ← hcode]
  split
  case isTrue h =>
    refine ⟨_, exec_nameIg_of_noGroup (IndustryGroup.ofCode?_eq_none h) s, ?_⟩
    rw [Response.cause_absentResult, BitVec.toNat_setWidth, Nat.mod_eq_of_lt (by omega)]
    rfl
  case isFalse h =>
    obtain ⟨g, hg, -⟩ := IndustryGroup.exists_ofCode? (not_le.1 h)
    exact ⟨_, exec_nameIg_of_group hg s, rfl⟩

/-- SLOT.ASRAW refuses when its quotient is no `u32`, and has the causes of a bounds test otherwise (R122, R125). -/
theorem slotAsRaw_answersByCause_or_refused (sel : Byte) (v : F64) :
    AnswersByCause (.slotAsRaw sel v) s ∨ ∃ e, exec (.slotAsRaw sel v) s = .refused e := by
  have htable : statusInfo s.cfg (.slotAsRaw sel v) = statusInfo.slotStatus s.cfg sel fun d => inBounds d v := rfl
  rw [AnswersByCause, htable, statusInfo.slotStatus]
  cases hd : s.cfg.slots[sel.toNat]? with
  | none => exact .inl ⟨_, execSlotAsRaw_illegal (List.getElem?_eq_none_iff.1 hd) v, rfl⟩
  | some d =>
    by_cases hv : inBounds d v = true
    · cases hraw : rawOf? d v with
      | some raw => exact .inl ⟨_, exec_slotAsRaw_of_inBounds hd hv hraw, by simp [hv]⟩
      | none => exact .inr ⟨_, exec_slotAsRaw_of_no_u32 hd hv hraw⟩
    · exact .inl ⟨_, exec_slotAsRaw_of_not_inBounds hd hv, by simp [hv]⟩

/-- Every operation answers by R139's table, but where SLOT.ASRAW refuses the record. -/
theorem exec_answersByCause_or_refused (i : Instr) : AnswersByCause i s ∨ ∃ e, exec i s = .refused e := by
  cases i with
  | idPrio sel raw | idSa sel raw =>
    exact .inl ⟨_, rfl, withIdentifier_cause (fun x => by cases x <;> rfl) sel raw⟩
  | idPf sel raw | idPs sel raw | idDp sel raw | idEdp sel raw => exact .inl ⟨_, rfl, withExtended_cause rfl sel⟩
  | idDa sel raw =>
    have hpdu : pduFormat raw ≤ 239 ↔ ¬ raw.toNat / 2 ^ 16 % 256 ≥ 240 := by rw [pduFormat_le_239_iff]; omega
    exact .inl ⟨_, rfl, withExtended_cause (respondOrAbsent_cause hpdu _) sel⟩
  | idGe sel raw =>
    have hpdu : 240 ≤ pduFormat raw ↔ ¬ raw.toNat / 2 ^ 16 % 256 ≤ 239 := by rw [le_pduFormat_240_iff]; omega
    exact .inl ⟨_, rfl, withExtended_cause (respondOrAbsent_cause hpdu _) sel⟩
  | nameNew f0 f1 f2 f3 f4 f5 f6 f7 f8 => exact .inl (nameNew_answersByCause s f0 f1 f2 f3 f4 f5 f6 f7 f8)
  | nameIg n => exact .inl (nameIg_answersByCause s n)
  | nameAsRaw | nameFromRaw | nameIdent | nameMfr | nameEcui | nameFni | nameFn | nameVs | nameVsi | nameAac
  | parDflt | cmdDflt => exact .inl ⟨_, rfl, rfl⟩
  | sigValid sel value | sigSpec sel value | sigErr sel value | sigNa sel value | sigClass sel value =>
    exact .inl ⟨_, rfl, withSignal_cause (fun _ _ => rfl) s.cfg sel value⟩
  | parDec c => exact .inl ⟨_, exec_parDec c s, Parameter.tagResponse_cause c _⟩
  | parEnc t => exact .inl ⟨_, exec_parEnc t s, Parameter.tagResponse_cause t _⟩
  | cmdDec c => exact .inl ⟨_, exec_cmdDec c s, Command.tagResponse_cause c _⟩
  | cmdEnc t => exact .inl ⟨_, exec_cmdEnc t s, Command.tagResponse_cause t _⟩
  | slotNew sel v => exact .inl ⟨_, rfl, withSlot_cause fun d => boundsTest_cause (inBounds d v) v⟩
  | slotFromRaw sel raw =>
    exact .inl ⟨_, rfl, withSlot_cause fun d => boundsTest_cause (inBounds d (physical d raw)) (physical d raw)⟩
  | slotAsRaw sel v => exact slotAsRaw_answersByCause_or_refused s sel v
  | slotScale | slotOffset | slotMin | slotMax | slotUnit => exact .inl ⟨_, rfl, withSlot_cause fun _ => rfl⟩

end

/-- Settles O16: an answer's fields are read back from the response port, and its cause is the table's; the reserved
`op` is O6's. -/
theorem statusAndInfoByCause : Obligations.StatusAndInfoByCause := by
  refine ⟨fun i s t hnext => ?_, fun s t hnext hop => ?_⟩
  · rcases exec_answersByCause_or_refused s i with ⟨p, hp, hcause⟩ | ⟨e, hrefused⟩
    · rw [hp, State.answer_eq_next] at hnext
      subst hnext
      exact (s.answered_with_word p).cause_eq.trans hcause
    · rw [hrefused] at hnext
      cases hnext
  · have hwf : s.cfg.wf = true := by
      by_contra hs
      rw [step_of_not_wf hs] at hnext
      cases hnext
    obtain ⟨t', ht', hanswered⟩ := reservedOpAnswersIllegalRequest s hwf hop
    rw [ht'] at hnext
    cases hnext
    exact hanswered.cause_eq

end Sys2Proof.Machine
end

section
/-! PROOFS. Requests and operations (spec/30_encoding.md rules R45 to R53): a request of an operation decodes to it, and
the request of what a request spells is that request under the mask of its format. -/

namespace Sys2Proof

open Claim Machine

/-! A narrow operand on the port `a` is read back by its format (R50) -/

@[simp] theorem Request.raw29_setWidth (op sel : Byte) (b : Word) (raw : BitVec 29) :
    Request.raw29 ⟨op, sel, b, raw.setWidth 64⟩ = raw := by
  simp [raw29, BitVec.extractLsb'_setWidth_of_le]

@[simp] theorem Request.raw32_setWidth (op sel : Byte) (b : Word) (value : BitVec 32) :
    Request.raw32 ⟨op, sel, b, value.setWidth 64⟩ = value := by
  simp [raw32, BitVec.extractLsb'_setWidth_of_le]

@[simp] theorem Request.code_setWidth (op sel : Byte) (b : Word) (c : Byte) :
    Request.code ⟨op, sel, b, c.setWidth 64⟩ = c := by
  simp [code, BitVec.extractLsb'_setWidth_of_le]

/-- The nine ports of format NP are read back where they were packed (R79). -/
@[simp] theorem Request.nameNew_packNameNew (op : Byte) (f0 : BitVec 32) (f1 : BitVec 16)
    (f2 f3 f4 f5 f6 f7 f8 : Byte) :
    (packNameNew op f0 f1 f2 f3 f4 f5 f6 f7 f8).nameNew = .nameNew f0 f1 f2 f3 f4 f5 f6 f7 f8 := by
  simp only [packNameNew, nameNew, Instr.nameNew.injEq]
  refine ⟨?_, ?_, ?_, ?_, ?_, ?_, ?_, ?_, ?_⟩ <;> ext k hk <;> simp <;> grind

/-- The `op` selects the constructor again, and its format reads back the operands it was driven with. -/
theorem Instr.decode_request (i : Instr) : i.request.decode = .operation i := by
  cases i with
  -- formats I, S, U and C: a narrow operand on `a`
  | idPrio | idSa | idPf | idPs | idDa | idGe | idDp | idEdp | sigValid | sigSpec | sigErr | sigNa | sigClass
  | slotFromRaw | parDec | parEnc | cmdDec | cmdEnc => simp [request, opcode, Request.decode]
  -- format NP
  | nameNew => exact congrArg Decoded.operation (Request.nameNew_packNameNew ..)
  -- formats N, Z, F and K: an operand as wide as its port, or none
  | _ => rfl

/-- Settles O1: decoding an encoding reads the operation's own request. -/
theorem decodeInvertsEncode : Obligations.DecodeInvertsEncode := fun i =>
  (decode_encode_request i).trans i.decode_request

/-! The request under the mask of its format -/

/-- A request with only the bits of a mask. -/
def Request.masked (q m : Request) : Request := ⟨q.op &&& m.op, q.sel &&& m.sel, q.b &&& m.b, q.a &&& m.a⟩

theorem Request.ofWord_and (w m : RequestWord) : ofWord (w &&& m) = (ofWord w).masked (ofWord m) := by
  simp [ofWord, masked, BitVec.extractLsb'_and]

/-- The low bits of a word, driven on a port of the word's size, are the word under a mask of ones. -/
theorem setWidth_extractLsb'_low (x : Word) {n : Nat} (hn : n ≤ 64) :
    (x.extractLsb' 0 n).setWidth 64 = x &&& BitVec.ofNat 64 (2 ^ n - 1) := by
  have hlt : 2 ^ n - 1 < 2 ^ 64 :=
    (Nat.sub_one_lt (Nat.two_pow_pos n).ne').trans_le (Nat.pow_le_pow_right (by decide) hn)
  apply BitVec.eq_of_toNat_eq
  rw [BitVec.toNat_setWidth_of_le hn, BitVec.extractLsb'_toNat, Nat.shiftRight_zero, BitVec.toNat_and,
    BitVec.toNat_ofNat, Nat.mod_eq_of_lt hlt, Nat.and_two_pow_sub_one_eq_mod]

section
variable {q : Request} {n : Nat} (hop : q.op.toNat = n)
include hop

theorem Request.op_eq_ofNat : q.op = BitVec.ofNat 8 n := by
  rw [← hop, BitVec.ofNat_toNat, BitVec.setWidth_eq]

/-- The request of the operation of any format, when each port it drives is the request's under the mask. -/
theorem Request.eq_masked {m : Request} (hm : m.op = 255) {sel : Byte} {b a : Word} (hsel : sel = q.sel &&& m.sel)
    (hb : b = q.b &&& m.b) (ha : a = q.a &&& m.a) : ⟨BitVec.ofNat 8 n, sel, b, a⟩ = q.masked m := by
  rw [masked, hm, hsel, hb, ha, ← op_eq_ofNat hop]
  exact congrArg (Request.mk · _ _ _) BitVec.and_allOnes.symm

/-- An operation that reads `sel` and the low `l` bits of `a`. -/
theorem Request.eq_masked_sel_low {l : Nat} (hl : l ≤ 64) :
    ⟨BitVec.ofNat 8 n, q.sel, 0, (q.a.extractLsb' 0 l).setWidth 64⟩ =
      q.masked ⟨255, 255, 0, BitVec.ofNat 64 (2 ^ l - 1)⟩ :=
  eq_masked hop rfl BitVec.and_allOnes.symm BitVec.and_zero.symm (setWidth_extractLsb'_low q.a hl)

/-- An operation that reads the low `l` bits of `a` and no `sel`. -/
theorem Request.eq_masked_low {l : Nat} (hl : l ≤ 64) :
    ⟨BitVec.ofNat 8 n, 0, 0, (q.a.extractLsb' 0 l).setWidth 64⟩ =
      q.masked ⟨255, 0, 0, BitVec.ofNat 64 (2 ^ l - 1)⟩ :=
  eq_masked hop rfl BitVec.and_zero.symm BitVec.and_zero.symm (setWidth_extractLsb'_low q.a hl)

/-- An operation that reads all of `a` and no `sel`. -/
theorem Request.eq_masked_a : ⟨BitVec.ofNat 8 n, 0, 0, q.a⟩ = q.masked ⟨255, 0, 0, BitVec.allOnes 64⟩ :=
  eq_masked hop rfl BitVec.and_zero.symm BitVec.and_zero.symm BitVec.and_allOnes.symm

/-- An operation that reads `sel` and all of `a`. -/
theorem Request.eq_masked_sel_a : ⟨BitVec.ofNat 8 n, q.sel, 0, q.a⟩ = q.masked ⟨255, 255, 0, BitVec.allOnes 64⟩ :=
  eq_masked hop rfl BitVec.and_allOnes.symm BitVec.and_zero.symm BitVec.and_allOnes.symm

/-- An operation that reads `sel` alone. -/
theorem Request.eq_masked_sel : ⟨BitVec.ofNat 8 n, q.sel, 0, 0⟩ = q.masked ⟨255, 255, 0, 0⟩ :=
  eq_masked hop rfl BitVec.and_allOnes.symm BitVec.and_zero.symm BitVec.and_zero.symm

/-- An operation without operands. -/
theorem Request.eq_masked_op : ⟨BitVec.ofNat 8 n, 0, 0, 0⟩ = q.masked ⟨255, 0, 0, 0⟩ :=
  eq_masked hop rfl BitVec.and_zero.symm BitVec.and_zero.symm BitVec.and_zero.symm

/-- Format NP packs its nine ports to all of `a` and to `b[39:0]`. -/
theorem Request.eq_masked_nameNew :
    packNameNew (BitVec.ofNat 8 n) (q.a.extractLsb' 0 32) (q.a.extractLsb' 32 16) (q.a.extractLsb' 48 8)
      (q.a.extractLsb' 56 8) (q.b.extractLsb' 0 8) (q.b.extractLsb' 8 8) (q.b.extractLsb' 16 8)
      (q.b.extractLsb' 24 8) (q.b.extractLsb' 32 8) =
        q.masked ⟨255, 0, BitVec.ofNat 64 (2 ^ 40 - 1), BitVec.allOnes 64⟩ := by
  refine eq_masked hop rfl BitVec.and_zero.symm ?_ ?_
  · rw [← setWidth_extractLsb'_low q.b (by decide)]
    apply BitVec.eq_of_toNat_eq
    simp only [toNat_append_byte, BitVec.extractLsb'_toNat, Nat.shiftRight_eq_div_pow, BitVec.toNat_setWidth_of_le,
      Nat.reduceLeDiff, BitVec.toNat_ofNat]
    omega
  · rw [BitVec.extractLsb'_append_extractLsb'_eq_extractLsb' (show 56 = 48 + 8 from rfl),
      BitVec.extractLsb'_append_extractLsb'_eq_extractLsb' (show 48 = 32 + 16 from rfl),
      BitVec.extractLsb'_append_extractLsb'_eq_extractLsb' (show 32 = 0 + 32 from rfl), BitVec.extractLsb'_eq_self]
    exact BitVec.and_allOnes.symm

end

/-- The request of the operation that a request spells is the request under the mask of its `op` (R48, R50). -/
theorem Request.request_of_decode {q : Request} {i : Instr} (h : q.decode = .operation i) :
    i.request = q.masked (ofWord (portBits q.op.toNat)) := by
  unfold decode at h
  split at h
  -- formats I, S and U
  case h_1 hop | h_2 hop | h_3 hop | h_4 hop | h_5 hop | h_6 hop | h_7 hop | h_8 hop | h_21 hop | h_22 hop | h_23 hop
      | h_24 hop | h_25 hop | h_33 hop =>
    cases h
    rw [hop]
    exact eq_masked_sel_low hop (by decide)
  -- format NP
  case h_9 hop =>
    cases h
    rw [hop]
    exact eq_masked_nameNew hop
  -- format N
  case h_10 hop | h_11 hop | h_12 hop | h_13 hop | h_14 hop | h_15 hop | h_16 hop | h_17 hop | h_18 hop | h_19 hop
      | h_20 hop =>
    cases h
    rw [hop]
    exact eq_masked_a hop
  -- format C
  case h_26 hop | h_27 hop | h_29 hop | h_30 hop =>
    cases h
    rw [hop]
    exact eq_masked_low hop (by decide)
  -- format Z
  case h_28 hop | h_31 hop =>
    cases h
    rw [hop]
    exact eq_masked_op hop
  -- format F
  case h_32 hop | h_34 hop =>
    cases h
    rw [hop]
    exact eq_masked_sel_a hop
  -- format K
  case h_35 hop | h_36 hop | h_37 hop | h_38 hop | h_39 hop =>
    cases h
    rw [hop]
    exact eq_masked_sel hop
  -- a reserved `op`
  case h_40 => cases h

/-- Settles O2: masking the request port masks its four fields. -/
theorem encodeKeepsEveryPortBit : Obligations.EncodeKeepsEveryPortBit := by
  intro w i h
  have hrequest := Request.request_of_decode h
  rw [encode, hrequest, Request.op_toNat_ofWord, ← Request.ofWord_and, Request.toWord_ofWord]

/-! Reserved values of `op` -/

/-- A request whose `op` is not reserved spells an operation with that `op`: R49 has a row for it. -/
theorem Request.exists_of_not_reservedOp {q : Request} (h : ¬ ReservedOp q.op.toNat) :
    ∃ i, q.decode = .operation i ∧ i.opcode.toNat = q.op.toNat := by
  unfold ReservedOp at h
  unfold decode
  split
  case h_40 =>
    simp only [imp_false] at *
    omega
  all_goals exact ⟨_, rfl, Eq.symm ‹_›⟩

/-- Settles O3: R53's list and R49's table divide the 256 values of `op`. -/
theorem reservedOpDecodesToNothing : Obligations.ReservedOpDecodesToNothing := by
  intro w
  rw [← Request.op_toNat_ofWord]
  refine ⟨fun h => ?_, Request.exists_of_not_reservedOp⟩
  rw [BitVec.ofNat_toNat, BitVec.setWidth_eq]
  exact Request.decode_of_reservedOp h

/-- Settles O4: each word has its `op` in the table, and its operands at their ports. -/
theorem writtenRequestsDecode : Obligations.WrittenRequestsDecode := by
  unfold Obligations.WrittenRequestsDecode
  decide

end Sys2Proof
end

section
/-! PROOFS. What a step leaves unchanged, and which responses it can leave on the port (spec/10_state.md rule R13,
spec/30_encoding.md rules R51, R52). -/

namespace Sys2Proof.Machine

open Claim

/-! The frame of a step -/

/-- Settles O5: under a configuration of CORE a step is the meaning of what is decoded. -/
theorem stepRunsDecodedOperation : Obligations.StepRunsDecodedOperation := by
  intro s i hs hdecode
  rw [step_of_wf hs, State.fetch, hdecode]
  rfl

/-- A step that goes on has evaluated a request under a configuration of CORE. -/
theorem cfg_wf_of_step_next {s t : State} (h : step s = .next t) : s.cfg.wf = true := by
  by_contra hs
  rw [step_of_not_wf hs] at h
  cases h

/-- A step that goes on has written a response on the response port, and nothing else. -/
theorem step_next {s t : State} (h : step s = .next t) : ∃ p, step s = s.answer p ∧ t = { s with rsp := p.word } := by
  obtain ⟨p, hp⟩ := step_eq_answer (cfg_wf_of_step_next h)
  exact ⟨p, hp, State.answer_eq_next.1 (hp ▸ h)⟩

/-- Settles O9: the next state is the old one with another response. -/
theorem stepWritesOnlyTheResponse : Obligations.StepWritesOnlyTheResponse := by
  intro s t h
  obtain ⟨p, -, rfl⟩ := step_next h
  exact ⟨rfl, rfl⟩

/-- Settles O10: the next state is the old one with another response. -/
theorem execWritesOnlyTheResponse : Obligations.ExecWritesOnlyTheResponse := by
  intro i s t h
  obtain ⟨p, -, rfl⟩ := exec_next h
  exact ⟨rfl, rfl⟩

/-- Settles O12: the next state differs in the response port only, which no step reads. -/
theorem stepIsIdempotent : Obligations.StepIsIdempotent := by
  intro s t h
  obtain ⟨hcfg, hreq⟩ := stepWritesOnlyTheResponse s t h
  rw [stepIgnoresEarlierResponse t s hcfg hreq, h]

/-- Settles O15: none of these meanings looks at the configuration before it answers. -/
theorem codecUnitsReadNoConfiguration : Obligations.CodecUnitsReadNoConfiguration := by
  intro i s c hi
  cases i with
  | sigValid | sigSpec | sigErr | sigNa | sigClass => cases hi
  | slotNew | slotFromRaw | slotAsRaw | slotScale | slotOffset | slotMin | slotMax | slotUnit => cases hi
  | _ => exact ⟨_, _, rfl, rfl, rfl⟩

/-! Legal responses -/

/-- A response that CORE can give (R51, R52). -/
structure Response.Legal (p : Response) : Prop where
  word : legalResponse p.word = true

theorem legal_respond {n : Nat} (v : BitVec n) : (respond v).Legal :=
  ⟨by simp [legalResponse, Status.code]⟩

theorem legal_illegalSel : illegalSel.Legal := ⟨by decide⟩

theorem legal_absent : absent.Legal := ⟨by decide⟩

theorem legal_outOfBounds : outOfBounds.Legal := ⟨by decide⟩

theorem legal_noVariant : (absentResult .illegalRequest infoNoVariant).Legal := ⟨by decide⟩

theorem legal_reservedOp : (absentResult .illegalRequest infoReservedOp).Legal := ⟨by decide⟩

/-- `OUT_OF_RANGE` reports any field but the function, which is as wide as its port (R80). -/
theorem legal_outOfRange {f : NameField} (h : f ≠ .function) : (absentResult .outOfRange f.index).Legal := by
  refine ⟨?_⟩
  cases f
  case function => exact absurd rfl h
  all_goals decide

/-- `UNRECOGNIZED_VARIANT` reports the codes 6 and 7 (R90). -/
theorem legal_unrecognizedVariant {code : Byte} (h : code.toNat = 6 ∨ code.toNat = 7) :
    (absentResult .unrecognizedVariant code).Legal :=
  ⟨by simpa [legalResponse, Status.code] using h⟩

/-- `UNRECOGNIZED_CODE` reports the codes of no Parameter, and 2, which is of no Command (R107, R110). -/
theorem legal_unrecognizedCode {code : Byte} (h : code.toNat = 2 ∨ 3 < code.toNat) :
    (absentResult .unrecognizedCode code).Legal :=
  ⟨by simpa [legalResponse, Status.code] using h⟩

/-! The operand forms -/

theorem legal_withIdentifier {k : Identifier → Response} (hk : ∀ x, (k x).Legal) (sel : Byte) (raw : BitVec 29) :
    (withIdentifier sel raw k).Legal := by
  unfold withIdentifier
  cases identifier? sel raw with
  | some x => exact hk x
  | none => exact legal_illegalSel

theorem legal_withExtended {k : BitVec 29 → Response} (hk : ∀ x, (k x).Legal) (sel : Byte) (raw : BitVec 29) :
    (withExtended sel raw k).Legal :=
  legal_withIdentifier (fun
    | .standard _ => legal_absent
    | .extended x => hk x) sel raw

theorem legal_withSignal {k : CutPoints → Nat → Response} (hk : ∀ c v, (k c v).Legal) (cfg : Cfg) (sel : Byte)
    (value : BitVec 32) : (withSignal cfg sel value k).Legal := by
  unfold withSignal
  cases sigWidth? sel with
  | some w => exact hk _ _
  | none => exact legal_illegalSel

theorem legal_withSlot {k : SlotDef → Response} (hk : ∀ d, (k d).Legal) (cfg : Cfg) (sel : Byte) :
    (withSlot cfg sel k).Legal := by
  unfold withSlot
  cases cfg.slots[sel.toNat]? with
  | some d => exact hk d
  | none => exact legal_illegalSel

theorem legal_ite {c : Prop} [Decidable c] {p q : Response} (hp : p.Legal) (hq : q.Legal) :
    (if c then p else q).Legal := by
  split <;> assumption

theorem legal_tagResponse {α : Type} {variant? : Option α} {tag : α → BitVec 2} {refusal : Response}
    (h : variant? = none → refusal.Legal) : (tagResponse variant? tag refusal).Legal := by
  cases variant? with
  | some v => exact legal_respond _
  | none => exact h rfl

/-- The value of an 8-bit port never exceeds the 8-bit function field (R79). -/
theorem firstOffender_ne_function {f0 : BitVec 32} {f1 : BitVec 16} {f2 f3 f4 f5 f6 f7 f8 : Byte} {f : NameField}
    (h : firstOffender (nameArguments f0 f1 f2 f3 f4 f5 f6 f7 f8) = some f) : f ≠ .function := by
  rintro rfl
  obtain ⟨⟨f, v⟩, hfind, rfl : f = .function⟩ := Option.map_eq_some_iff.1 h
  have hlt : NameField.function.limit < v := by simpa using List.find?_some hfind
  have hvalue : v = f4.setWidth 64 := by simpa [nameArguments] using List.mem_of_find?_eq_some hfind
  have hfits : v ≤ NameField.function.limit := by
    rw [hvalue, NameField.le_limit_iff, BitVec.toNat_setWidth_of_le (by decide)]
    exact f4.isLt
  exact absurd hlt (BitVec.not_lt.2 hfits)

theorem legal_nameResponse (f0 : BitVec 32) (f1 : BitVec 16) (f2 f3 f4 f5 f6 f7 f8 : Byte) :
    (nameResponse (nameArguments f0 f1 f2 f3 f4 f5 f6 f7 f8)).Legal := by
  cases h : firstOffender (nameArguments f0 f1 f2 f3 f4 f5 f6 f7 f8) with
  | some f =>
    rw [nameResponse_of_offender h]
    exact legal_outOfRange (firstOffender_ne_function h)
  | none =>
    rw [nameResponse_of_fits h]
    exact legal_respond _

/-! The operations -/

/-- The operation answers with a legal response. -/
def AnswersLegally (i : Instr) (s : State) : Prop := ∃ p, exec i s = s.answer p ∧ p.Legal

theorem nameIg_answersLegally (n : Word) (s : State) : AnswersLegally (.nameIg n) s := by
  rcases Nat.lt_or_ge (NameField.industryGroup.get n).toNat 6 with h | h
  · obtain ⟨g, hg, -⟩ := IndustryGroup.exists_ofCode? h
    exact ⟨_, exec_nameIg_of_group hg s, legal_respond _⟩
  · have hcode : (NameField.industryGroup.get n).toNat < 8 := by
      rw [NameField.get_toNat]
      exact Nat.mod_lt _ (by decide)
    refine ⟨_, exec_nameIg_of_noGroup (IndustryGroup.ofCode?_eq_none h) s, legal_unrecognizedVariant ?_⟩
    rw [BitVec.toNat_setWidth]
    omega

theorem Parameter.code_of_ofCode?_eq_none {c : Byte} (h : ofCode? c = none) : 3 < c.toNat := by
  by_contra hc
  obtain ⟨p, hp, -⟩ := exists_ofCode? (not_lt.1 hc)
  rw [hp] at h
  cases h

theorem Command.code_of_ofCode?_eq_none {c : Byte} (h : ofCode? c = none) : c.toNat = 2 ∨ 3 < c.toNat := by
  by_contra hc
  obtain ⟨k, hk, -⟩ := exists_ofCode? (c := c) (by omega)
  rw [hk] at h
  cases h

theorem slotAsRaw_answersLegally (sel : Byte) (v : F64) {s : State} (hs : s.cfg.wf = true) :
    AnswersLegally (.slotAsRaw sel v) s := by
  cases hd : s.cfg.slots[sel.toNat]? with
  | none => exact ⟨_, execSlotAsRaw_illegal (List.getElem?_eq_none_iff.1 hd) v, legal_illegalSel⟩
  | some d =>
    by_cases hv : inBounds d v = true
    · exact ⟨_, exec_slotAsRaw_of_inBounds hd hv (rawOf?_of_inBounds (slot_wf_of_cfg_wf hs hd) hv), legal_respond _⟩
    · exact ⟨_, exec_slotAsRaw_of_not_inBounds hd hv, legal_outOfBounds⟩

theorem exec_answersLegally (i : Instr) {s : State} (hs : s.cfg.wf = true) : AnswersLegally i s := by
  cases i with
  | idPrio sel raw | idSa sel raw =>
    exact ⟨_, rfl, legal_withIdentifier (fun x => by cases x <;> exact legal_respond _) sel raw⟩
  | idPf sel raw | idPs sel raw | idDp sel raw | idEdp sel raw =>
    exact ⟨_, rfl, legal_withExtended (fun _ => legal_respond _) sel raw⟩
  | idDa sel raw | idGe sel raw =>
    exact ⟨_, rfl, legal_withExtended (fun _ => legal_ite (legal_respond _) legal_absent) sel raw⟩
  | nameNew => exact ⟨_, exec_nameNew s .., legal_nameResponse ..⟩
  | nameIg n => exact nameIg_answersLegally n s
  | nameAsRaw | nameFromRaw | nameIdent | nameMfr | nameEcui | nameFni | nameFn | nameVs | nameVsi | nameAac
  | parDflt | cmdDflt => exact ⟨_, rfl, legal_respond _⟩
  | sigValid sel value | sigSpec sel value | sigErr sel value | sigNa sel value | sigClass sel value =>
    exact ⟨_, rfl, legal_withSignal (fun _ _ => legal_respond _) s.cfg sel value⟩
  | parDec c =>
    exact ⟨_, exec_parDec c s,
      legal_tagResponse fun h => legal_unrecognizedCode (.inr (Parameter.code_of_ofCode?_eq_none h))⟩
  | cmdDec c =>
    exact ⟨_, exec_cmdDec c s, legal_tagResponse fun h => legal_unrecognizedCode (Command.code_of_ofCode?_eq_none h)⟩
  | parEnc t => exact ⟨_, exec_parEnc t s, legal_tagResponse fun _ => legal_noVariant⟩
  | cmdEnc t => exact ⟨_, exec_cmdEnc t s, legal_tagResponse fun _ => legal_noVariant⟩
  | slotNew sel v | slotFromRaw sel v =>
    exact ⟨_, rfl, legal_withSlot (fun _ => legal_ite (legal_respond _) legal_outOfBounds) s.cfg sel⟩
  | slotAsRaw sel v => exact slotAsRaw_answersLegally sel v hs
  | slotScale sel | slotOffset sel | slotMin sel | slotMax sel | slotUnit sel =>
    exact ⟨_, rfl, legal_withSlot (fun _ => legal_respond _) s.cfg sel⟩

/-- Settles O18: a step answers a reserved `op` or runs an operation, and both answer legally. -/
theorem everyResponseIsLegal : Obligations.EveryResponseIsLegal := by
  intro s t h
  have hlegal : ∃ p, step s = s.answer p ∧ p.Legal := by
    rcases step_cases s with ⟨hs, i, -, hstep⟩ | ⟨-, op, -, hstep⟩ | ⟨-, hstep⟩
    · rw [hstep]
      exact exec_answersLegally i hs
    · exact ⟨_, hstep, legal_reservedOp⟩
    · rw [hstep] at h
      cases h
  obtain ⟨p, hp, hlegal⟩ := hlegal
  rw [hp, State.answer_eq_next] at h
  subst h
  exact hlegal.word

/-- Settles O17: the configuration is kept, and the new response is legal whatever the old one was. -/
theorem stepKeepsInvariant : Obligations.StepKeepsInvariant := by
  intro s t hs h
  obtain ⟨hcfg, -⟩ := hs
  obtain ⟨hframe, -⟩ := stepWritesOnlyTheResponse s t h
  exact ⟨by rw [hframe, hcfg], everyResponseIsLegal s t h⟩

/-- Settles O19: T1 passes R153's check, and the response port shows `ILLEGAL_REQUEST(0)`. -/
theorem resetMeetsInvariant : Obligations.ResetMeetsInvariant :=
  ⟨by decide +kernel, by decide⟩

end Sys2Proof.Machine
end

section
/-! PROOFS. Configurations of CORE (spec/70_reset_and_hazards.md rule R153): the model's check accepts exactly the
records that R153 lists. -/

namespace Sys2Proof.Machine

open Claim

/-! Slot definitions (R119) -/

theorem F64.toUnits_eq_zero_iff {x : F64} : F64.toUnits x = 0 ↔ F64.units x = 0 := by
  unfold F64.toUnits
  split <;> omega

theorem F64.fle_refl_of_isFinite {x : F64} (h : F64.isFinite x = true) : F64.fle x x = true := by
  have hmag : F64.mag x ≤ F64.infMag := (of_decide_eq_true h).le
  exact fle_iff.2 ⟨hmag, hmag, le_rfl⟩

/-- The check reads R119 (d) at the two bounds, which are values in bounds; for the others the bounds decide. -/
theorem wellFormedSlot_iff_wf {d : SlotDef} : WellFormedSlot d ↔ d.wf = true := by
  constructor
  · rintro ⟨hs, ho, hmin, hmax, h0, hle, hq⟩
    have hend (v : F64) (h1 : F64.fle d.min v = true) (h2 : F64.fle v d.max = true) : d.encodable v = true :=
      Bool.and_eq_true_iff.2 (hq v h1 h2)
    have hencMin := hend d.min (F64.fle_refl_of_isFinite hmin) hle
    have hencMax := hend d.max hle (F64.fle_refl_of_isFinite hmax)
    rw [ne_eq, F64.toUnits_eq_zero_iff] at h0
    simp [SlotDef.wf, hs, ho, hmin, hmax, h0, hle, hencMin, hencMax]
  · intro h
    have hparts := h
    simp only [SlotDef.wf, Bool.and_eq_true, bne_iff_ne, ne_eq, ← F64.toUnits_eq_zero_iff] at hparts
    obtain ⟨⟨⟨⟨⟨⟨⟨hs, ho⟩, hmin⟩, hmax⟩, h0⟩, hle⟩, -⟩, -⟩ := hparts
    exact ⟨hs, ho, hmin, hmax, h0, hle, fun v h1 h2 =>
      Bool.and_eq_true_iff.1 (encodable_of_inBounds h (inBounds_iff.2 ⟨h1, h2⟩))⟩

/-! The signal range table (R96) -/

/-- The statements' table of rows lists the nine widths. -/
theorem rangeRow_eq_getElem? (t : RangeTable) (k : Nat) :
    rangeRow t k = (SigWidth.all.map fun w => (w.bits, t.row w))[k]? := rfl

theorem cutPoints_wf_iff {c : CutPoints} {w : SigWidth} : c.wf w = true ↔
    c.vmax.toNat < c.smax.toNat ∧ c.smax.toNat < c.emax.toNat ∧ c.emax.toNat < 2 ^ w.bits - 1 := by
  simp [CutPoints.wf, and_assoc]

theorem rangeRows_ordered_iff (t : RangeTable) : (∀ k W row, rangeRow t k = some (W, row) →
      row.vmax.toNat < row.smax.toNat ∧ row.smax.toNat < row.emax.toNat ∧ row.emax.toNat < 2 ^ W - 1) ↔
    SigWidth.all.all (fun w => (t.row w).wf w) = true := by
  simp only [List.all_eq_true, cutPoints_wf_iff, rangeRow_eq_getElem?]
  constructor
  · intro h w hw
    obtain ⟨k, hk⟩ := List.mem_iff_getElem?.1 hw
    exact h k w.bits (t.row w) (by rw [List.getElem?_map, hk]; rfl)
  · intro h k W row hk
    obtain ⟨w, hw, heq⟩ := List.mem_map.1 (List.mem_of_getElem? hk)
    cases heq
    exact h w hw

/-! The slot table (R118) -/

theorem head?_isSlot0_iff {slots : List SlotDef} : slots.head?.any SlotDef.isSlot0 = true ↔
    ∃ unit rest, slots = Config.slot0 unit :: rest := by
  cases slots with
  | nil => simp
  | cons d rest =>
    simp only [List.head?_cons, Option.any_some, SlotDef.isSlot0, beq_iff_eq, List.cons.injEq]
    constructor
    · exact fun h => ⟨d.unit, rest, h, rfl⟩
    · rintro ⟨unit, -, rfl, -⟩
      rfl

theorem configurationOfCore_iff_wf {c : Cfg} : ConfigurationOfCore c ↔ c.wf = true := by
  simp only [ConfigurationOfCore, rangeRows_ordered_iff, wellFormedSlot_iff_wf, Cfg.wf, RangeTable.wf,
    Bool.and_eq_true, beq_iff_eq, decide_eq_true_eq, List.all_eq_true, head?_isSlot0_iff, and_assoc]
  rfl

/-- Settles O8: `step` makes R153's test before it evaluates anything, and under a configuration of CORE it
answers. -/
theorem stepTotalOnConfigurations : Obligations.StepTotalOnConfigurations := by
  intro s
  rw [configurationOfCore_iff_wf]
  refine ⟨fun hs => ?_, step_of_not_wf⟩
  obtain ⟨p, hp⟩ := step_eq_answer hs
  exact ⟨_, hp⟩

end Sys2Proof.Machine
end

section
/-! PROOFS. The reserved bit 48 of a Name (spec/42_name.md rule R78): it is in no field. -/

namespace Sys2Proof.Machine

theorem xor_and_right (x y m : Word) : (x ^^^ y) &&& m = (x &&& m) ^^^ (y &&& m) := by
  ext i hi
  simp [Bool.and_xor_distrib_right]

/-- No field reads bit 48 (R77). -/
theorem NameField.get_xor_reservedBit (f : NameField) (n : Word) :
    f.get (n ^^^ 0x0001000000000000#64) = f.get n := by
  have hmask : (0x0001000000000000#64 >>> f.offset) &&& f.limit = 0 := by cases f <;> decide
  rw [get, BitVec.ushiftRight_xor_distrib, xor_and_right, hmask]
  exact BitVec.xor_zero

theorem answerField_xor_reservedBit (f : NameField) (n : Word) (s : State) :
    answerField f (n ^^^ 0x0001000000000000#64) s = answerField f n s := by
  rw [answerField, answerField, NameField.get_xor_reservedBit]

theorem execNameIg_xor_reservedBit (n : Word) (s : State) :
    execNameIg (n ^^^ 0x0001000000000000#64) s = execNameIg n s := by
  simp only [execNameIg, NameField.get_xor_reservedBit]

/-- Settles O31: a constructed Name is the sum of its fields, which lie beside bit 48; an accessor reads one field. -/
theorem nameReservedBit : Obligations.NameReservedBit := by
  intro s
  refine ⟨fun f0 f1 f2 f3 f4 f5 f6 f7 f8 n h => ?_, fun n => ⟨completes_nameAsRaw n s, completes_nameFromRaw n s, ?_⟩⟩
  · rw [completes_nameNew_iff, nameArguments_fit_iff, nameArguments_fieldSum] at h
    obtain ⟨hfit, rfl⟩ := h
    omega
  · simp only [List.forall_mem_cons, List.not_mem_nil, false_imp_iff, implies_true, and_true]
    have hplain (f : NameField) := (answerField_xor_reservedBit f n s).symm
    exact ⟨hplain _, hplain _, hplain _, hplain _, hplain _, hplain _, hplain _,
      (execNameIg_xor_reservedBit n s).symm, hplain _⟩

end Sys2Proof.Machine
end

section
/-! PROOFS. The binary64 arithmetic (spec/44_slot.md rules R120, R121, spec/93_implementation_defined.md G1): a rounded
magnitude lies between the midpoints to its neighbours, which is what nearest-even says. -/

namespace Sys2Proof.Machine.F64

open Claim

/-! Rounding to nearest, ties to even -/

/-- `num / den` units lie between the midpoint below the pattern `m` and the midpoint above it, and on one of them only
when `m` is even. -/
structure BetweenMidpoints (num den m : Nat) : Prop where
  above : 2 * num ≤ (unitsOfMag m + unitsOfMag (m + 1)) * den
  above_tie : 2 * num = (unitsOfMag m + unitsOfMag (m + 1)) * den → m % 2 = 0
  below : 0 < m → (unitsOfMag (m - 1) + unitsOfMag m) * den ≤ 2 * num
  below_tie : 0 < m → (unitsOfMag (m - 1) + unitsOfMag m) * den = 2 * num → m % 2 = 0

/-- The value of a significand of at most 53 bits at an exponent; below 53 bits the exponent is the lowest. -/
theorem unitsOfMag_scaled {k r : Nat} (hlow : k = 0 ∨ 2 ^ 52 ≤ r) (hhigh : r ≤ 2 ^ 53) :
    unitsOfMag (k * 2 ^ 52 + r) = r * 2 ^ k := by
  rcases Nat.eq_or_lt_of_le hhigh with rfl | hlt
  · have hcarry : k * 2 ^ 52 + 2 ^ 53 = (k + 1) * 2 ^ 52 + 2 ^ 52 := by ring
    rw [hcarry, unitsOfMag_significand (k + 1) le_rfl (by decide)]
    ring
  · rcases hlow with rfl | hlow
    · rcases Nat.lt_or_ge r (2 ^ 52) with hsub | hnorm
      · rw [Nat.zero_mul, Nat.zero_add, pow_zero, Nat.mul_one, unitsOfMag_of_lt hsub]
      · exact unitsOfMag_significand 0 hnorm hlt
    · exact unitsOfMag_significand k hlow hlt

/-- The next pattern is at least a unit in the last place above. -/
theorem unitsOfMag_succ_scaled {k r : Nat} (hlow : k = 0 ∨ 2 ^ 52 ≤ r) :
    unitsOfMag (k * 2 ^ 52 + r) + 2 ^ k ≤ unitsOfMag (k * 2 ^ 52 + r + 1) := by
  rw [unitsOfMag_succ]
  have hexp : k ≤ (k * 2 ^ 52 + r) / 2 ^ 52 - 1 := by omega
  have := Nat.pow_le_pow_right (show 0 < 2 by decide) hexp
  omega

/-- The pattern before is one unit in the last place below, but for the lowest normal significand. -/
theorem unitsOfMag_pred_scaled {k r : Nat} (hlow : k = 0 ∨ 2 ^ 52 ≤ r) (hhigh : r ≤ 2 ^ 53)
    (hpos : 0 < k * 2 ^ 52 + r) :
    unitsOfMag (k * 2 ^ 52 + r - 1) + 2 ^ k = unitsOfMag (k * 2 ^ 52 + r) ∨ (k ≠ 0 ∧ r = 2 ^ 52) := by
  by_cases hedge : k ≠ 0 ∧ r = 2 ^ 52
  · exact .inr hedge
  · obtain ⟨q, rfl⟩ : ∃ q, r = q + 1 := Nat.exists_eq_add_one.2 (by omega)
    left
    rw [← Nat.add_assoc, Nat.add_sub_cancel, Nat.add_assoc, unitsOfMag_scaled hlow hhigh,
      unitsOfMag_scaled (by omega) (by omega)]
    ring

/-- The exponent and the significand that `roundMag` puts together. -/
theorem betweenMidpoints_rounded (num : Nat) {den : Nat} (hden : 0 < den) :
    BetweenMidpoints num den
      (roundShift num den * 2 ^ 52 + roundDiv num (den * 2 ^ roundShift num den)) := by
  have hunit : 0 < den * 2 ^ roundShift num den := by positivity
  obtain ⟨hnear, hnear', htie⟩ := roundDiv_spec num hunit
  have hhigh := roundDiv_le hunit (num_lt_of_roundShift hden).le
  have hnormal : roundShift num den ≠ 0 → 2 ^ 52 * (den * 2 ^ roundShift num den) ≤ num :=
    le_num_of_roundShift hden
  have hlow : roundShift num den = 0 ∨ 2 ^ 52 ≤ roundDiv num (den * 2 ^ roundShift num den) :=
    (eq_or_ne _ 0).imp_right fun h => le_roundDiv hunit (hnormal h)
  generalize roundShift num den = k at *
  generalize roundDiv num (den * 2 ^ k) = r at *
  have hparity : (k * 2 ^ 52 + r) % 2 = r % 2 := by omega
  have hvalue : unitsOfMag (k * 2 ^ 52 + r) * den = r * (den * 2 ^ k) := by
    rw [unitsOfMag_scaled hlow hhigh]
    ring
  have hnext := Nat.mul_le_mul_right den (unitsOfMag_succ_scaled hlow)
  rw [Nat.add_mul, hvalue, Nat.mul_comm (2 ^ k)] at hnext
  have hpred (hpos : 0 < k * 2 ^ 52 + r) :
      unitsOfMag (k * 2 ^ 52 + r - 1) * den + den * 2 ^ k = r * (den * 2 ^ k) ∨
        (unitsOfMag (k * 2 ^ 52 + r - 1) * den < r * (den * 2 ^ k) ∧ r * (den * 2 ^ k) ≤ num) := by
    rcases unitsOfMag_pred_scaled hlow hhigh hpos with h | ⟨hk, rfl⟩
    · left
      rw [← hvalue, ← h]
      ring
    · right
      rw [← hvalue]
      exact ⟨Nat.mul_lt_mul_of_pos_right (unitsOfMag_strictMono (Nat.sub_one_lt hpos.ne')) hden,
        hvalue.trans_le (hnormal hk)⟩
  refine ⟨?_, ?_, fun hpos => ?_, fun hpos => ?_⟩ <;> rw [Nat.add_mul, hvalue]
  · omega
  · omega
  · have := hpred hpos
    omega
  · have := hpred hpos
    omega

section
variable {num den m : Nat} (h : BetweenMidpoints num den m)
include h

/-- Between the midpoints no other pattern is nearer. -/
theorem BetweenMidpoints.nearest (hden : 0 < den) {m' : Nat} (hne : m' ≠ m) :
    let near := ((unitsOfMag m * den : Nat) - (num : Nat) : Int).natAbs
    let other := ((unitsOfMag m' * den : Nat) - (num : Nat) : Int).natAbs
    near < other ∨ (near = other ∧ m % 2 = 0) := by
  obtain ⟨habove, habove', hbelow, hbelow'⟩ := h
  rw [Nat.add_mul] at habove habove' hbelow hbelow'
  rcases Nat.lt_or_gt_of_ne hne with hlt | hgt
  · have hle := Nat.mul_le_mul_right den (unitsOfMag_strictMono.monotone (Nat.le_sub_one_of_lt hlt))
    have hstep := Nat.mul_lt_mul_of_pos_right (unitsOfMag_strictMono hlt) hden
    dsimp only
    omega
  · have hle : unitsOfMag (m + 1) * den ≤ unitsOfMag m' * den :=
      Nat.mul_le_mul_right den (unitsOfMag_strictMono.monotone hgt)
    have hstep := Nat.mul_lt_mul_of_pos_right (unitsOfMag_strictMono hgt) hden
    dsimp only
    omega

/-- A rounding is past the largest finite value exactly from the midpoint below the infinity's pattern on: that midpoint
is a tie, and the largest finite pattern is odd. -/
theorem BetweenMidpoints.infMag_le_iff (hden : 0 < den) : infMag ≤ m ↔ (2 ^ 54 - 1) * 2 ^ 2044 * den ≤ num := by
  have hmid : unitsOfMag (infMag - 1) + unitsOfMag infMag = 2 * ((2 ^ 54 - 1) * 2 ^ 2044) := by decide +kernel
  have hmid' := congrArg (· * den) hmid
  simp only [Nat.mul_assoc 2] at hmid'
  obtain ⟨habove, habove', hbelow, -⟩ := h
  constructor
  · intro hle
    have hsum : unitsOfMag (infMag - 1) + unitsOfMag infMag ≤ unitsOfMag (m - 1) + unitsOfMag m :=
      Nat.add_le_add (unitsOfMag_strictMono.monotone (Nat.sub_le_sub_right hle 1))
        (unitsOfMag_strictMono.monotone hle)
    have := Nat.mul_le_mul_right den hsum
    have := hbelow (lt_of_lt_of_le (by decide) hle)
    omega
  · intro hnum
    by_contra hlt
    rcases Nat.eq_or_lt_of_le (Nat.le_sub_one_of_lt (not_le.1 hlt)) with rfl | hlt'
    · have hodd : (infMag - 1) % 2 = 1 := by decide
      have hsucc : infMag - 1 + 1 = infMag := by decide
      rw [hsucc] at habove habove'
      omega
    · have hsum : unitsOfMag m + unitsOfMag (m + 1) < unitsOfMag (infMag - 1) + unitsOfMag infMag :=
        Nat.add_lt_add (unitsOfMag_strictMono hlt') (unitsOfMag_strictMono (by omega))
      have := Nat.mul_lt_mul_of_pos_right hsum hden
      omega

end

/-- `roundMag` rounds once, to nearest, ties to even, with an infinity above the largest finite value. -/
theorem nearestEven_roundMag (num : Nat) {den : Nat} (hden : 0 < den) :
    NearestEven num den (roundMag num den) := by
  have h := betweenMidpoints_rounded num hden
  have hinf := h.infMag_le_iff hden
  have hmin : roundMag num den =
      min (roundShift num den * 2 ^ 52 + roundDiv num (den * 2 ^ roundShift num den)) infMag := by
    simp only [roundMag, pow2_eq]
  simp only [hmin, NearestEven, ← hinf]
  split
  case isTrue hle => exact Nat.min_eq_right hle
  case isFalse hlt =>
    rw [Nat.min_eq_left (not_le.1 hlt).le]
    exact ⟨not_le.1 hlt, fun m' _ hne => h.nearest hden hne⟩

/-- Closed `with_reducible`, here and below: otherwise Lean unfolds `NearestEven` and evaluates its powers of two. -/
theorem nearestEven_ofSignMag {num den : Nat} (hden : 0 < den) (neg : Bool) :
    NearestEven num den (mag (ofSignMag neg (roundMag num den))) ∧ (ofSignMag neg (roundMag num den)).msb = neg := by
  rw [mag_ofSignMag _ (roundMag_lt _ _), msb_ofSignMag _ (roundMag_lt _ _)]
  with_reducible exact ⟨nearestEven_roundMag num hden, rfl⟩

/-! The four operations -/

/-- An exact zero sum rounds to zero, with a sign of its own. -/
theorem nearestEven_fadd {x y : F64} (hx : isFinite x = true) (hy : isFinite y = true) :
    NearestEven (toUnits x + toUnits y).natAbs 1 (mag (fadd x y)) ∧
      ((fadd x y).msb = if toUnits x + toUnits y = 0 then x.msb && y.msb
        else decide (toUnits x + toUnits y < 0)) := by
  rw [fadd_of_isFinite hx hy]
  by_cases h0 : toUnits x + toUnits y = 0
  · rw [if_pos h0, if_pos h0, h0, Int.natAbs_zero, ← roundMag_zero 1]
    exact nearestEven_ofSignMag Nat.one_pos _
  · rw [if_neg h0, if_neg h0]
    exact nearestEven_ofSignMag Nat.one_pos _

/-- Subtraction is the addition of the other operand with its sign turned. -/
theorem nearestEven_fsub {x y : F64} (hx : isFinite x = true) (hy : isFinite y = true) :
    NearestEven (toUnits x - toUnits y).natAbs 1 (mag (fsub x y)) ∧
      ((fsub x y).msb = if toUnits x - toUnits y = 0 then x.msb && !y.msb
        else decide (toUnits x - toUnits y < 0)) := by
  have h := nearestEven_fadd hx (y := fneg y) (by rwa [fneg_isFinite])
  rwa [fneg_toUnits, fneg_msb, ← sub_eq_add_neg] at h

theorem fmul_of_isFinite {x y : F64} (hx : isFinite x = true) (hy : isFinite y = true) :
    fmul x y = ofSignMag (x.msb != y.msb) (roundMag (units x * units y) unitsPerOne) := by
  simp [fmul, not_isNaN_of_isFinite hx, not_isNaN_of_isFinite hy, not_isInf_of_isFinite hx, not_isInf_of_isFinite hy]

/-- Settles O49: each operation puts the sign of the exact result on its rounded magnitude. -/
theorem arithmeticRoundsOnce : Obligations.ArithmeticRoundsOnce := by
  intro x y hx hy
  refine ⟨nearestEven_fadd hx hy, nearestEven_fsub hx hy, ?_, fun hy0 => ?_⟩
  · rw [fmul_of_isFinite hx hy, ← unitsPerOne_eq, ← Bool.bne_eq_xor]
    exact nearestEven_ofSignMag (by decide) _
  · rw [ne_eq, toUnits_eq_zero_iff] at hy0
    rw [fdiv_of_isFinite hx hy hy0, ← unitsPerOne_eq, ← Bool.bne_eq_xor]
    exact nearestEven_ofSignMag (Nat.pos_of_ne_zero hy0) _

/-! Comparison and conversions -/

/-- Settles O50: patterns that are no NaN are ordered as their values. -/
theorem comparisonIsValueOrder : Obligations.ComparisonIsValueOrder := by
  intro x y
  rw [fle_iff, key_le_key_iff]

/-- Settles O51: a whole number below 2^53 is a binary64 value. -/
theorem conversionOfU32IsExact : Obligations.ConversionOfU32IsExact := by
  intro n
  have hmag : mag (ofU32 n) = roundMag (n.toNat * unitsPerOne) 1 := mag_ofSignMag _ (roundMag_lt _ _)
  have hmsb : (ofU32 n).msb = false := msb_ofSignMag _ (roundMag_lt _ _)
  obtain ⟨hlt, hunits⟩ := roundMag_whole (n.isLt.trans (by decide))
  rw [isFinite, toUnits, hmsb, units, hmag, hunits, ← unitsPerOne_cast]
  exact ⟨decide_eq_true hlt, Nat.cast_mul _ _⟩

/-- A significand has at most 53 bits. -/
theorem unitsOfMag_lt (m : Nat) : unitsOfMag m < 2 ^ 53 * 2 ^ (m / 2 ^ 52 - 1) := by
  rcases Nat.lt_or_ge m (2 ^ 52) with h | h
  · rw [unitsOfMag_of_lt h, Nat.div_eq_of_lt h]
    omega
  · rw [unitsOfMag_of_le h]
    exact Nat.mul_lt_mul_of_pos_right (by omega) (Nat.two_pow_pos _)

/-- The whole part fits in 53 bits, or the exponent is not negative and the value is a whole number. -/
theorem wholePart_lt_or_dvd (x : F64) : wholePart x < 2 ^ 53 ∨ unitsPerOne ∣ units x := by
  rcases Nat.lt_or_ge (mag x / 2 ^ 52 - 1) 1074 with hexp | hexp
  · left
    have hlt : units x < 2 ^ 53 * unitsPerOne := by
      rw [unitsPerOne_eq]
      refine (unitsOfMag_lt _).trans_le (Nat.mul_le_mul_left _ ?_)
      gcongr
      decide
    exact Nat.div_lt_of_lt_mul (by rwa [Nat.mul_comm])
  · right
    rw [units, unitsOfMag_of_le (by omega), unitsPerOne_eq]
    exact Dvd.dvd.mul_left (pow_dvd_pow 2 hexp) _

/-- Rounding the whole part is exact: it fits in 53 bits, or it is the value. -/
theorem roundMag_wholePart {x : F64} (hx : isFinite x = true) : roundMag (wholePart x * unitsPerOne) 1 < infMag ∧
    unitsOfMag (roundMag (wholePart x * unitsPerOne) 1) = wholePart x * unitsPerOne := by
  rcases wholePart_lt_or_dvd x with hlt | hdvd
  · exact roundMag_whole hlt
  · have hmag : mag x < infMag := of_decide_eq_true hx
    have hwhole : wholePart x * unitsPerOne = unitsOfMag (mag x) := Nat.div_mul_cancel hdvd
    rw [hwhole, roundMag_unitsOfMag hmag.le]
    exact ⟨hmag, rfl⟩

/-- Settles O52: `trunc` puts the operand's sign on the rounded whole part, and that rounding is exact. -/
theorem truncRoundsTowardZero : Obligations.TruncRoundsTowardZero := by
  intro x hx
  obtain ⟨hlt, hunits⟩ := roundMag_wholePart hx
  have hmag := roundMag_lt (wholePart x * unitsPerOne) 1
  rw [trunc, if_pos hx, isFinite, units, mag_ofSignMag _ hmag, msb_ofSignMag _ hmag, hunits, wholePart,
    ← unitsPerOne_eq]
  exact ⟨decide_eq_true hlt, rfl, rfl⟩

end Sys2Proof.Machine.F64
end

section
/-! PROOFS. Exact binary64 results (spec/44_slot.md rule R120): operations by 0.0 and by 1.0, whose exact result is an
operand. -/

namespace Sys2Proof.Machine.F64

theorem natAbs_toUnits (x : F64) : (toUnits x).natAbs = units x := by
  unfold toUnits
  split <;> omega

theorem natAbs_key (x : F64) : (key x).natAbs = mag x := by
  unfold key
  split <;> omega

/-- A value is not changed by rounding. -/
theorem roundKey_toUnits {x : F64} (hx : mag x ≤ infMag) : roundKey (toUnits x) 1 = key x := by
  have hzero : units x = 0 → mag x = 0 := fun h => unitsOfMag_injective h
  rw [roundKey, natAbs_toUnits, units, roundMag_unitsOfMag hx]
  unfold toUnits key
  split <;> split <;> omega

/-- Patterns of one place in the order are finite together, with one value. -/
theorem isFinite_toUnits_of_key_eq {x y : F64} (h : key x = key y) : isFinite x = isFinite y ∧ toUnits x = toUnits y := by
  have hmag : mag x = mag y := by rw [← natAbs_key, h, natAbs_key]
  exact ⟨by rw [isFinite, hmag, isFinite], le_antisymm ((key_le_key_iff x y).1 h.le) ((key_le_key_iff y x).1 h.ge)⟩

/-- Adding a zero gives the value of the other term. -/
theorem fadd_zero_right {x y : F64} (hx : isFinite x = true) (hy : isFinite y = true) (h0 : toUnits y = 0) :
    isFinite (fadd x y) = true ∧ toUnits (fadd x y) = toUnits x := by
  have hkey : key (fadd x y) = key x := by
    rw [key_fadd hx hy, h0, Int.add_zero, roundKey_toUnits (of_decide_eq_true hx).le]
  rw [← hx]
  exact isFinite_toUnits_of_key_eq hkey

/-- The sign bit of a value that is not zero is its sign. -/
theorem decide_toUnits_neg {x : F64} : toUnits x ≠ 0 → decide (toUnits x < 0) = x.msb := by
  unfold toUnits
  cases x.msb <;> simp [Nat.pos_iff_ne_zero]

/-- Adding a value that is not zero to a zero gives that value's own pattern. -/
theorem fadd_zero_left {x y : F64} (hx : isFinite x = true) (hy : isFinite y = true) (h0 : toUnits x = 0)
    (hne : toUnits y ≠ 0) : fadd x y = y := by
  rw [fadd_of_isFinite hx hy, h0, Int.zero_add, if_neg hne, decide_toUnits_neg hne, natAbs_toUnits, units,
    roundMag_unitsOfMag (of_decide_eq_true hy).le, ofSignMag_msb_mag]

/-- A common factor of numerator and denominator does not change the rounding. -/
theorem roundMag_mul_right (num : Nat) {c : Nat} (hc : 0 < c) : roundMag (num * c) c = roundMag num 1 :=
  le_antisymm (roundMag_mono hc Nat.one_pos (by rw [Nat.mul_one])) (roundMag_mono Nat.one_pos hc (by rw [Nat.mul_one]))

/-- 1.0. -/
def one : F64 := 0x3FF0000000000000#64

theorem units_one : units one = unitsPerOne := by decide +kernel

theorem fmul_one {x : F64} (hx : isFinite x = true) : fmul x one = x := by
  have hmsb : one.msb = false := by decide
  rw [fmul_of_isFinite hx (by decide), units_one, roundMag_mul_right _ (by decide), units,
    roundMag_unitsOfMag (of_decide_eq_true hx).le, hmsb, Bool.bne_false, ofSignMag_msb_mag]

theorem fdiv_one {x : F64} (hx : isFinite x = true) : fdiv x one = x := by
  have hmsb : one.msb = false := by decide
  have hne : units one ≠ 0 := by rw [units_one]; decide
  rw [fdiv_of_isFinite hx (by decide) hne, units_one, roundMag_mul_right _ (by decide), units,
    roundMag_unitsOfMag (of_decide_eq_true hx).le, hmsb, Bool.bne_false, ofSignMag_msb_mag]

/-- The product of finite values is no NaN. -/
theorem fmul_mag_le {x y : F64} (hx : isFinite x = true) (hy : isFinite y = true) : mag (fmul x y) ≤ infMag := by
  rw [fmul_of_isFinite hx hy, mag_ofSignMag _ (roundMag_lt _ _)]
  exact roundMag_le_infMag _ _

/-- The product of a zero by a finite value is a zero. -/
theorem fmul_zero_left {x y : F64} (hx : isFinite x = true) (hy : isFinite y = true) (h0 : units x = 0) :
    mag (fmul x y) = 0 := by
  rw [fmul_of_isFinite hx hy, h0, Nat.zero_mul, roundMag_zero, mag_ofSignMag _ (by decide)]

theorem toUnits_of_mag_eq_zero {x : F64} (h : mag x = 0) : toUnits x = 0 := by
  rw [toUnits_eq_zero_iff, units, h, unitsOfMag_zero]

/-- An infinity absorbs a finite term. -/
theorem fadd_of_isInf {x y : F64} (hx : mag x = infMag) (hy : isFinite y = true) : fadd x y = x := by
  have hnan : isNaN x = false := by simp [isNaN, hx]
  have hinf : isInf x = true := by simp [isInf, hx]
  simp [fadd, hnan, hinf, not_isNaN_of_isFinite hy, not_isInf_of_isFinite hy]

/-- The sum of a value that is no NaN and a finite value is no NaN. -/
theorem fadd_mag_le_of_mag_le {x y : F64} (hx : mag x ≤ infMag) (hy : isFinite y = true) :
    mag (fadd x y) ≤ infMag := by
  rcases Nat.eq_or_lt_of_le hx with hinf | hfin
  · rw [fadd_of_isInf hinf hy]
    exact hx
  · exact fadd_mag_le (decide_eq_true hfin) hy

end Sys2Proof.Machine.F64
end

section
/-! PROOFS. Laws of the Slot unit (spec/44_slot.md rules R118, R122, R124, R125, R132, R133). -/

namespace Sys2Proof.Machine

open Claim

/-- Entry 0 of a configuration of CORE is the source's slot (R118, R153). -/
theorem exists_slot0_of_cfg_wf {c : Cfg} (hc : c.wf = true) : ∃ unit, c.slots[0]? = some (Config.slot0 unit) := by
  simp only [Cfg.wf, Bool.and_eq_true] at hc
  obtain ⟨-, hhead⟩ := hc
  obtain ⟨unit, rest, h⟩ := head?_isSlot0_iff.1 hhead
  exact ⟨unit, by rw [h]; rfl⟩

/-- Settles O43: the constants of slot 0 are those of the source's slot. -/
theorem slotZeroConstants : Obligations.SlotZeroConstants := by
  intro s hs
  obtain ⟨unit, h0⟩ := exists_slot0_of_cfg_wf hs
  obtain ⟨hscale, hoffset, hmin, hmax, -⟩ := slotConstants s 0 _ h0
  exact ⟨hscale, hoffset, hmin, hmax⟩

/-! The bounds test -/

/-- An operation that responds with a value in bounds of its slot, and refuses any other, completes with `OK` exactly
for an entry of the slot table and a value in bounds of it. -/
theorem completes_ok_iff_of_boundsTest {i : Instr} {s : State} {sel : Byte} (k : SlotDef → F64)
    (h : exec i s = s.answer
      (withSlot s.cfg sel fun d => if inBounds d (k d) then respond (k d) else outOfBounds)) {x : Nat} :
    Completes i s 0 0 x ↔ ∃ d, s.cfg.slots[sel.toNat]? = some d ∧ inBounds d (k d) = true ∧ (k d).toNat = x := by
  rw [completes_iff_of_answer h, withSlot]
  cases s.cfg.slots[sel.toNat]? with
  | none => simp [illegalSel, Status.code]
  | some d => by_cases hv : inBounds d (k d) = true <;> simp [hv, outOfBounds, Status.code]

theorem completes_slotNew_ok_iff {s : State} {sel : Byte} {v : F64} {x : Nat} : Completes (.slotNew sel v) s 0 0 x ↔
    ∃ d, s.cfg.slots[sel.toNat]? = some d ∧ inBounds d v = true ∧ v.toNat = x :=
  completes_ok_iff_of_boundsTest (fun _ => v) rfl

theorem completes_slotFromRaw_ok_iff {s : State} {sel : Byte} {raw : BitVec 32} {x : Nat} :
    Completes (.slotFromRaw sel raw) s 0 0 x ↔
      ∃ d, s.cfg.slots[sel.toNat]? = some d ∧ inBounds d (physical d raw) = true ∧ (physical d raw).toNat = x :=
  completes_ok_iff_of_boundsTest (fun d => physical d raw) rfl

/-- The two zeros have one place in the order (R122). -/
theorem inBounds_negZero_iff (d : SlotDef) : inBounds d 0x8000000000000000#64 = true ↔ inBounds d 0 = true := by
  have hmag : F64.mag 0x8000000000000000#64 = F64.mag 0 := by decide
  have hkey : F64.key 0x8000000000000000#64 = F64.key 0 := by decide
  simp only [inBounds_iff, fle_iff, hmag, hkey]

/-- Settles O44: a value in bounds is finite, and the bounds test reads the place of a value in the order. -/
theorem boundsRefuseNaNAndInfinity : Obligations.BoundsRefuseNaNAndInfinity := by
  intro s sel d hs hd
  refine ⟨fun v hv => ?_, ?_⟩
  · have hout : ¬ inBounds d v = true := fun hin =>
      absurd (of_decide_eq_true (isFinite_of_inBounds (slot_wf_of_cfg_wf hs hd) hin)) (not_lt.2 hv)
    rw [inBounds_iff] at hout
    exact ⟨(slotNewChecksBounds s sel v d hd).2 hout, (slotAsRawTruncates s sel v d hs hd).2 hout⟩
  · simp only [completes_slotNew_ok_iff, hd, Option.some.injEq, exists_eq_left', inBounds_negZero_iff]
    simp

/-- A value in bounds of its slot is encoded (R125). -/
theorem exists_completes_slotAsRaw {s : State} (hs : s.cfg.wf = true) {sel : Byte} {d : SlotDef}
    (hd : s.cfg.slots[sel.toNat]? = some d) {v : F64} (hv : inBounds d v = true) :
    ∃ n, Completes (.slotAsRaw sel (BitVec.ofNat 64 v.toNat)) s 0 0 n := by
  rw [BitVec.ofNat_toNat, BitVec.setWidth_eq]
  obtain ⟨n, -, hn, -⟩ := (slotAsRawTruncates s sel v d hs hd).1 (inBounds_iff.1 hv)
  exact ⟨n, hn⟩

/-- Settles O45: both operations answer `OK` for a value in bounds only. -/
theorem slotInstancesEncode : Obligations.SlotInstancesEncode := by
  intro s sel hs
  refine ⟨fun v x h => ?_, fun raw x h => ?_⟩
  · obtain ⟨d, hd, hin, rfl⟩ := completes_slotNew_ok_iff.1 h
    exact exists_completes_slotAsRaw hs hd hin
  · obtain ⟨d, hd, hin, rfl⟩ := completes_slotFromRaw_ok_iff.1 h
    exact exists_completes_slotAsRaw hs hd hin

/-! SLOT.FROMRAW -/

/-- Settles O46: the product is no NaN, and for raw 0 it is a zero, which the sum passes over. -/
theorem slotFromRawCorners : Obligations.SlotFromRawCorners := by
  rintro d ⟨hs, ho, -⟩
  have hfin (raw : BitVec 32) : F64.isFinite (F64.ofU32 raw) = true := (F64.conversionOfU32IsExact raw).1
  have hzero : F64.mag (F64.fmul (F64.ofU32 0) d.scale) = 0 := F64.fmul_zero_left (hfin 0) hs (by decide +kernel)
  have hunits := F64.toUnits_of_mag_eq_zero hzero
  have hprod : F64.isFinite (F64.fmul (F64.ofU32 0) d.scale) = true := by rw [F64.isFinite, hzero]; decide
  refine ⟨fun raw => ?_, fun hne => F64.fadd_zero_left hprod ho hunits hne, fun h0 => ?_⟩
  · have hmag := F64.fadd_mag_le_of_mag_le (F64.fmul_mag_le (hfin raw) hs) ho
    simpa [F64.isNaN] using hmag
  · rw [F64.fadd_of_isFinite hprod ho, hunits, h0, Int.add_zero, if_pos rfl, F64.mag_ofSignMag _ (by decide)]

/-! Slot 0 -/

theorem toUnits_slot0_max (unit : BitVec 64) :
    F64.toUnits (Config.slot0 unit).max = ((64255 * F64.unitsPerOne : Nat) : Int) := by
  change F64.toUnits 0x40EF5FE000000000#64 = _
  decide +kernel

/-- The encode quotient of slot 0 is the value itself (R118, R132). -/
theorem toUnits_quotient_slot0 (unit : BitVec 64) {v : F64} (hv : F64.isFinite v = true) :
    F64.toUnits ((Config.slot0 unit).quotient v) = F64.toUnits v := by
  have hsub : F64.isFinite (F64.fsub v 0) = true ∧ F64.toUnits (F64.fsub v 0) = F64.toUnits v :=
    F64.fadd_zero_right hv (by decide) (by decide)
  change F64.toUnits (F64.fdiv (F64.fsub v 0) F64.one) = _
  rw [F64.fdiv_one hsub.1, hsub.2]

/-- The physical value of a raw integer in slot 0 is the integer. -/
theorem physical_slot0 (unit : BitVec 64) (raw : BitVec 32) :
    F64.isFinite (physical (Config.slot0 unit) raw) = true ∧
      F64.toUnits (physical (Config.slot0 unit) raw) = (raw.toNat : Int) * 2 ^ 1074 := by
  obtain ⟨hfin, hunits⟩ := F64.conversionOfU32IsExact raw
  change F64.isFinite (F64.fadd (F64.fmul (F64.ofU32 raw) F64.one) 0) = true ∧
    F64.toUnits (F64.fadd (F64.fmul (F64.ofU32 raw) F64.one) 0) = _
  rw [F64.fmul_one hfin, ← hunits]
  exact F64.fadd_zero_right hfin (by decide) (by decide)

/-- A finite value is in bounds of slot 0 when it lies between 0 and 64255 units of 1. -/
theorem inBounds_slot0_iff (unit : BitVec 64) {v : F64} (hv : F64.isFinite v = true) :
    inBounds (Config.slot0 unit) v = true ↔
      0 ≤ F64.toUnits v ∧ F64.toUnits v ≤ ((64255 * F64.unitsPerOne : Nat) : Int) := by
  have hmag : F64.mag v ≤ F64.infMag := (of_decide_eq_true hv).le
  have hmin : F64.toUnits (Config.slot0 unit).min = 0 := F64.toUnits_of_mag_eq_zero rfl
  have hmagMin : F64.mag (Config.slot0 unit).min ≤ F64.infMag := by
    change F64.mag 0 ≤ _
    decide
  have hmagMax : F64.mag (Config.slot0 unit).max ≤ F64.infMag := by
    change F64.mag 0x40EF5FE000000000#64 ≤ _
    decide
  rw [inBounds_iff, F64.comparisonIsValueOrder, F64.comparisonIsValueOrder, hmin, toUnits_slot0_max]
  simp only [hmag, hmagMin, hmagMax, true_and]

/-- Settles O47: in slot 0 both directions compute exactly, so that the answer is the whole part of `v` and decodes to
itself. -/
theorem slotZeroRoundTrip : Obligations.SlotZeroRoundTrip := by
  intro s v hs hlow hhigh
  obtain ⟨unit, hd⟩ := exists_slot0_of_cfg_wf hs
  have hin : inBounds (Config.slot0 unit) v = true := inBounds_iff.2 ⟨hlow, hhigh⟩
  have hv := isFinite_of_inBounds (slot_wf_of_cfg_wf hs hd) hin
  obtain ⟨hpos, hmax⟩ := (inBounds_slot0_iff unit hv).1 hin
  obtain ⟨n, hn, hanswer, -, hfloor, -⟩ := (slotAsRawTruncates s 0 v _ hs hd).1 ⟨hlow, hhigh⟩
  have hquotient : F64.toUnits (F64.fdiv (F64.fsub v (Config.slot0 unit).offset) (Config.slot0 unit).scale) =
      F64.toUnits v := toUnits_quotient_slot0 unit hv
  rw [hquotient] at hfloor
  obtain ⟨hbelow, habove⟩ := hfloor hpos
  have hle : n ≤ 64255 := by
    rw [← F64.unitsPerOne_cast] at hbelow
    exact Nat.le_of_mul_le_mul_right (c := F64.unitsPerOne) (mod_cast hbelow.trans hmax) (by decide)
  obtain ⟨hfin, hphysical⟩ := physical_slot0 unit (BitVec.ofNat 32 n)
  rw [BitVec.toNat_ofNat, Nat.mod_eq_of_lt hn] at hphysical
  have hinPhysical : inBounds (Config.slot0 unit) (physical (Config.slot0 unit) (BitVec.ofNat 32 n)) = true := by
    rw [inBounds_slot0_iff unit hfin, hphysical, ← F64.unitsPerOne_cast]
    exact ⟨mod_cast Nat.zero_le _, mod_cast Nat.mul_le_mul_right _ hle⟩
  exact ⟨n, hle, hanswer, hbelow, habove, _, completes_slotFromRaw_ok_iff.2 ⟨_, hd, hinPhysical, rfl⟩, hfin, hphysical⟩

/-! New slots -/

/-- Settles O48: an entry of the old table is the same entry of the longer one, and each operation reads its own entry
alone. -/
theorem newSlotsChangeNoAnswer : Obligations.NewSlotsChangeNoAnswer := by
  intro s more sel raw v hsel
  have hentry : (s.cfg.slots ++ more)[sel.toNat]? = s.cfg.slots[sel.toNat]? := List.getElem?_append_left hsel
  have hslot (k : SlotDef → Response) :
      (withSlot s.cfg sel k).word = (withSlot { s.cfg with slots := s.cfg.slots ++ more } sel k).word := by
    rw [withSlot, withSlot, hentry]
  have hd := List.getElem?_eq_getElem hsel
  have hd' : (s.withCfg { s.cfg with slots := s.cfg.slots ++ more }).cfg.slots[sel.toNat]? =
      some s.cfg.slots[sel.toNat] := hentry.trans hd
  simp only [List.forall_mem_cons, List.not_mem_nil, false_imp_iff, implies_true, and_true]
  refine ⟨hslot _, hslot _, ?_, hslot _, hslot _, hslot _, hslot _, hslot _⟩
  by_cases hv : inBounds s.cfg.slots[sel.toNat] v = true
  · cases hraw : rawOf? s.cfg.slots[sel.toNat] v with
    | some n =>
      rw [exec_slotAsRaw_of_inBounds hd hv hraw, exec_slotAsRaw_of_inBounds hd' hv hraw]
      exact rfl
    | none =>
      rw [exec_slotAsRaw_of_no_u32 hd hv hraw, exec_slotAsRaw_of_no_u32 hd' hv hraw]
  · rw [exec_slotAsRaw_of_not_inBounds hd hv, exec_slotAsRaw_of_not_inBounds hd' hv]
    exact rfl

end Sys2Proof.Machine
end
